-- ==== Sys2Proof/Word.lean ====
section
/-! DEFINITION. The widths of the machine's values (00_scope.md R5, R8): every value is an unsigned number of a stated width. -/

namespace Sys2Proof

/-- A byte of memory, a V register, a timer, an `NN` immediate: 8 bits unsigned (R5). -/
abbrev Byte := BitVec 8

/-- `pc`, `I`, a stack entry, an instruction word: 16 bits unsigned (R5, R80). -/
abbrev Word := BitVec 16

/-- The `NNN` field, 12 bits (R10). -/
abbrev Address12 := BitVec 12

/-- The `N` field, 4 bits: a row count (R10, R83). -/
abbrev Nibble := BitVec 4

/-- The number of a V register, 0 to 15 (R21). -/
abbrev Reg := Fin 16

/-- VF, register 15: a general register and the machine's one flag register (R22). -/
abbrev Reg.flag : Reg := 15

end Sys2Proof
end

