-- ==== Sys2Proof/Syntax.lean ====
section
/-! DEFINITION. The instruction set: one constructor per row of the opcode map (30_encoding.md R86, spec/opcode_table.json). -/

namespace Sys2Proof

/-- The 31 instructions, in the order of R86. A field has the width R82 and R83 give it, so no term of this type
names a register above 15 or an immediate that does not fit. -/
inductive Instr where
  /-- `0000`, no-op (R112). -/
  | nop
  /-- `00E0`, clear the framebuffer (R180). -/
  | cls
  /-- `00EE`, return (R113). -/
  | ret
  /-- `1NNN`, jump (R114). -/
  | jp (nnn : Address12)
  /-- `2NNN`, call (R116). -/
  | call (nnn : Address12)
  /-- `3XNN`, skip if `V[X] = NN` (R119). -/
  | seImm (x : Reg) (nn : Byte)
  /-- `4XNN`, skip if `V[X] != NN` (R120). -/
  | sneImm (x : Reg) (nn : Byte)
  /-- `5XY0`, skip if `V[X] = V[Y]` (R121). -/
  | seReg (x y : Reg)
  /-- `6XNN`, load immediate (R140). -/
  | ldImm (x : Reg) (nn : Byte)
  /-- `7XNN`, add immediate (R141). -/
  | addImm (x : Reg) (nn : Byte)
  /-- `8XY0`, copy a register (R142). -/
  | ldReg (x y : Reg)
  /-- `8XY1`, bitwise OR (R143). -/
  | orReg (x y : Reg)
  /-- `8XY2`, bitwise AND (R144). -/
  | andReg (x y : Reg)
  /-- `8XY3`, bitwise XOR (R145). -/
  | xorReg (x y : Reg)
  /-- `8XY4`, add with carry flag (R146). -/
  | addReg (x y : Reg)
  /-- `8XY5`, `V[X] - V[Y]` with the not-borrow flag (R147). -/
  | subReg (x y : Reg)
  /-- `8XY6`, shift right; `y` is in the encoding and plays no part (R148, R151). -/
  | shr (x y : Reg)
  /-- `8XY7`, `V[Y] - V[X]` with the not-borrow flag (R149). -/
  | subn (x y : Reg)
  /-- `8XYE`, shift left; `y` is in the encoding and plays no part (R150, R151). -/
  | shl (x y : Reg)
  /-- `9XY0`, skip if `V[X] != V[Y]` (R122). -/
  | sneReg (x y : Reg)
  /-- `ANNN`, load `I` (R170). -/
  | ldI (nnn : Address12)
  /-- `BNNN`, jump to `V[0] + NNN` (R118). -/
  | jpV0 (nnn : Address12)
  /-- `CXNN`, random byte AND `NN` (R173). -/
  | rnd (x : Reg) (nn : Byte)
  /-- `DXYN`, draw an `N`-row sprite (R181). -/
  | drw (x y : Reg) (n : Nibble)
  /-- `EX9E`, skip if key `V[X]` is pressed (R190). -/
  | skp (x : Reg)
  /-- `EXA1`, skip if key `V[X]` is not pressed (R191). -/
  | sknp (x : Reg)
  /-- `FX07`, read the delay timer (R194). -/
  | ldVxDt (x : Reg)
  /-- `FX0A`, wait for a key (R193). -/
  | ldVxK (x : Reg)
  /-- `FX15`, write the delay timer (R195). -/
  | ldDtVx (x : Reg)
  /-- `FX18`, write the sound timer (R196). -/
  | ldStVx (x : Reg)
  /-- `FX1E`, add to `I` (R171). -/
  | addI (x : Reg)
  deriving DecidableEq, Repr

end Sys2Proof
end

