-- ==== Sys2Proof/WellFormed.lean ====
section
/-! DEFINITION. Well-formedness of instructions: operand ranges (30_encoding.md R83, R92) and the document's "well-formed
program" (00_scope.md R15, 93_implementation_defined.md U1). -/

namespace Sys2Proof

/-- An operand as a line of assembly writes it (R92): a plain number and the field it is meant for. -/
inductive Operand where
  /-- A V register, field `X` or `Y`. -/
  | reg (k : Nat)
  /-- A 4-bit number, field `N`. -/
  | imm4 (k : Nat)
  /-- An 8-bit number, field `NN`. -/
  | imm8 (k : Nat)
  /-- A 12-bit number, field `NNN`. -/
  | imm12 (k : Nat)
  deriving DecidableEq, Repr

/-- Does the number fit its field (R81, R83)? -/
def Operand.inRange : Operand → Bool
  | .reg k => k < 16
  | .imm4 k => k < 16
  | .imm8 k => k < 256
  | .imm12 k => k < 4096

/-- The operands an instruction's encoding carries, in the order its pattern shows them (R82). -/
def Instr.operands : Instr → List Operand
  | .nop | .cls | .ret => []
  | .jp nnn | .call nnn | .ldI nnn | .jpV0 nnn => [.imm12 nnn.toNat]
  | .seImm x nn | .sneImm x nn | .ldImm x nn | .addImm x nn | .rnd x nn => [.reg x.val, .imm8 nn.toNat]
  | .seReg x y | .ldReg x y | .orReg x y | .andReg x y | .xorReg x y | .addReg x y | .subReg x y | .shr x y
  | .subn x y | .shl x y | .sneReg x y => [.reg x.val, .reg y.val]
  | .drw x y n => [.reg x.val, .reg y.val, .imm4 n.toNat]
  | .skp x | .sknp x | .ldVxDt x | .ldVxK x | .ldDtVx x | .ldStVx x | .addI x => [.reg x.val]

/-- Every operand fits its field. The fields of `Instr` carry their widths, so this holds of every term
(`Sys2Proof.Laws.Encoding`); the check itself is on plain numbers and refuses those that do not fit (log 26). -/
def Instr.wellFormed (i : Instr) : Bool := i.operands.all Operand.inRange

/-- The document's "well-formed program" does not use VF as a general register (R15, R22). U1 lists the instructions
that would, by naming VF as `X`. The hardware does not enforce it (R15) and neither does the decoder or `exec`. -/
def Instr.keepsFlagRegister : Instr → Bool
  | .ldImm x _ | .addImm x _ | .rnd x _ => x != Reg.flag
  | .ldReg x _ | .orReg x _ | .andReg x _ | .xorReg x _ | .addReg x _ | .subReg x _ | .shr x _ | .subn x _
  | .shl x _ => x != Reg.flag
  | .ldVxDt x | .ldVxK x => x != Reg.flag
  | .nop | .cls | .ret | .jp _ | .call _ | .seImm _ _ | .sneImm _ _ | .seReg _ _ | .sneReg _ _ | .ldI _ | .jpV0 _
  | .drw _ _ _ | .skp _ | .sknp _ | .ldDtVx _ | .ldStVx _ | .addI _ => true

end Sys2Proof
end

