-- ==== Sys2Proof/Decode.lean ====
section
/-! DEFINITION. Decoding and encoding of instruction words (30_encoding.md R80 to R92). -/

namespace Sys2Proof

/-- Why bytes are no instruction. -/
inductive DecodeError where
  /-- The word matches no row of the opcode map (R85, R89). -/
  | illegal (op : Word)
  /-- Fewer than the two bytes every instruction has (R80). -/
  | truncated
  deriving DecidableEq, Repr

/-- `op[15:12]`, the top nibble (R10, R81). -/
def fieldTop (op : Word) : Nibble := op.extractLsb' 12 4

/-- `X = op[11:8]` (R10). -/
def fieldX (op : Word) : Reg := (op.extractLsb' 8 4).toFin

/-- `Y = op[7:4]` (R10). -/
def fieldY (op : Word) : Reg := (op.extractLsb' 4 4).toFin

/-- `N = op[3:0]` (R10). -/
def fieldN (op : Word) : Nibble := op.extractLsb' 0 4

/-- `NN = op[7:0]` (R10). -/
def fieldNN (op : Word) : Byte := op.extractLsb' 0 8

/-- `NNN = op[11:0]` (R10). -/
def fieldNNN (op : Word) : Address12 := op.extractLsb' 0 12

/-- Top nibble 0: the whole word is the key (R84, R87). -/
def decodeFamily0 (op : Word) : Except DecodeError Instr :=
  if op = 0x0000#16 then .ok .nop
  else if op = 0x00E0#16 then .ok .cls
  else if op = 0x00EE#16 then .ok .ret
  else .error (.illegal op)

/-- Top nibble 8: the bottom nibble is the key (R84, R88). -/
def decodeFamily8 (op : Word) : Except DecodeError Instr :=
  if fieldN op = 0x0#4 then .ok (.ldReg (fieldX op) (fieldY op))
  else if fieldN op = 0x1#4 then .ok (.orReg (fieldX op) (fieldY op))
  else if fieldN op = 0x2#4 then .ok (.andReg (fieldX op) (fieldY op))
  else if fieldN op = 0x3#4 then .ok (.xorReg (fieldX op) (fieldY op))
  else if fieldN op = 0x4#4 then .ok (.addReg (fieldX op) (fieldY op))
  else if fieldN op = 0x5#4 then .ok (.subReg (fieldX op) (fieldY op))
  else if fieldN op = 0x6#4 then .ok (.shr (fieldX op) (fieldY op))
  else if fieldN op = 0x7#4 then .ok (.subn (fieldX op) (fieldY op))
  else if fieldN op = 0xE#4 then .ok (.shl (fieldX op) (fieldY op))
  else .error (.illegal op)

/-- Top nibble E: the bottom byte is the key (R84). -/
def decodeFamilyE (op : Word) : Except DecodeError Instr :=
  if fieldNN op = 0x9E#8 then .ok (.skp (fieldX op))
  else if fieldNN op = 0xA1#8 then .ok (.sknp (fieldX op))
  else .error (.illegal op)

/-- Top nibble F: the bottom byte is the key (R84). -/
def decodeFamilyF (op : Word) : Except DecodeError Instr :=
  if fieldNN op = 0x07#8 then .ok (.ldVxDt (fieldX op))
  else if fieldNN op = 0x0A#8 then .ok (.ldVxK (fieldX op))
  else if fieldNN op = 0x15#8 then .ok (.ldDtVx (fieldX op))
  else if fieldNN op = 0x18#8 then .ok (.ldStVx (fieldX op))
  else if fieldNN op = 0x1E#8 then .ok (.addI (fieldX op))
  else .error (.illegal op)

/-- The decoder, by the hierarchical dispatch of R84: total on all 65536 words, and every word R84 gives no key for is
illegal under its own value (R85, R89). That a `0` of a pattern must be 0 in the word is decision D6 (log 7). -/
def decode (op : Word) : Except DecodeError Instr :=
  if fieldTop op = 0x0#4 then decodeFamily0 op
  else if fieldTop op = 0x1#4 then .ok (.jp (fieldNNN op))
  else if fieldTop op = 0x2#4 then .ok (.call (fieldNNN op))
  else if fieldTop op = 0x3#4 then .ok (.seImm (fieldX op) (fieldNN op))
  else if fieldTop op = 0x4#4 then .ok (.sneImm (fieldX op) (fieldNN op))
  else if fieldTop op = 0x5#4 then
    if fieldN op = 0x0#4 then .ok (.seReg (fieldX op) (fieldY op)) else .error (.illegal op)
  else if fieldTop op = 0x6#4 then .ok (.ldImm (fieldX op) (fieldNN op))
  else if fieldTop op = 0x7#4 then .ok (.addImm (fieldX op) (fieldNN op))
  else if fieldTop op = 0x8#4 then decodeFamily8 op
  else if fieldTop op = 0x9#4 then
    if fieldN op = 0x0#4 then .ok (.sneReg (fieldX op) (fieldY op)) else .error (.illegal op)
  else if fieldTop op = 0xA#4 then .ok (.ldI (fieldNNN op))
  else if fieldTop op = 0xB#4 then .ok (.jpV0 (fieldNNN op))
  else if fieldTop op = 0xC#4 then .ok (.rnd (fieldX op) (fieldNN op))
  else if fieldTop op = 0xD#4 then .ok (.drw (fieldX op) (fieldY op) (fieldN op))
  else if fieldTop op = 0xE#4 then decodeFamilyE op
  else decodeFamilyF op

/-- Two bytes of memory as one instruction word, the byte at the lower address on the high side (R51, R80). -/
def joinBytes (hi lo : Byte) : Word := hi ++ lo

/-- The byte of an instruction word at the lower address: bits 15 to 8 (R80). -/
def highByte (op : Word) : Byte := op.extractLsb' 8 8

/-- The byte of an instruction word at the higher address: bits 7 to 0 (R80). -/
def lowByte (op : Word) : Byte := op.extractLsb' 0 8

/-- The decoder on bytes in memory order: the instruction of the first two and the bytes after it. -/
def decodeBytes : List Byte → Except DecodeError (Instr × List Byte)
  | hi :: lo :: rest =>
    match decode (joinBytes hi lo) with
    | .ok i => .ok (i, rest)
    | .error e => .error e
  | _ => .error .truncated

/-- The host's probe of the decoder: the instruction read from the word whose low `nbits` bits are `w`'s, bit 0 the
least significant bit of the first (and only) 16-bit word, the bits above `nbits` zero. -/
def decodeTableWord (nbits w : Nat) : Option Instr :=
  let op : Word := BitVec.ofNat 16 (w % 2 ^ nbits)
  match decodeBytes [highByte op, lowByte op] with
  | .ok (i, _) => some i
  | .error _ => none

/-! ### The opcode map as a table -/

/-- A row of the opcode map: a word `op` is of this row when `op & mask = pattern` (R85, R86). -/
structure OpcodeRow where
  pattern : Word
  mask : Word
  build : Word → Instr

/-- Does the word match the row (R85)? -/
def OpcodeRow.accepts (r : OpcodeRow) (op : Word) : Bool := op &&& r.mask == r.pattern

/-- Rows 1 to 11 of R86. -/
def opcodeRowsA : List OpcodeRow :=
  [ ⟨0x0000, 0xFFFF, fun _ => .nop⟩
  , ⟨0x00E0, 0xFFFF, fun _ => .cls⟩
  , ⟨0x00EE, 0xFFFF, fun _ => .ret⟩
  , ⟨0x1000, 0xF000, fun op => .jp (fieldNNN op)⟩
  , ⟨0x2000, 0xF000, fun op => .call (fieldNNN op)⟩
  , ⟨0x3000, 0xF000, fun op => .seImm (fieldX op) (fieldNN op)⟩
  , ⟨0x4000, 0xF000, fun op => .sneImm (fieldX op) (fieldNN op)⟩
  , ⟨0x5000, 0xF00F, fun op => .seReg (fieldX op) (fieldY op)⟩
  , ⟨0x6000, 0xF000, fun op => .ldImm (fieldX op) (fieldNN op)⟩
  , ⟨0x7000, 0xF000, fun op => .addImm (fieldX op) (fieldNN op)⟩
  , ⟨0x8000, 0xF00F, fun op => .ldReg (fieldX op) (fieldY op)⟩ ]

/-- Rows 12 to 20 of R86. -/
def opcodeRowsB : List OpcodeRow :=
  [ ⟨0x8001, 0xF00F, fun op => .orReg (fieldX op) (fieldY op)⟩
  , ⟨0x8002, 0xF00F, fun op => .andReg (fieldX op) (fieldY op)⟩
  , ⟨0x8003, 0xF00F, fun op => .xorReg (fieldX op) (fieldY op)⟩
  , ⟨0x8004, 0xF00F, fun op => .addReg (fieldX op) (fieldY op)⟩
  , ⟨0x8005, 0xF00F, fun op => .subReg (fieldX op) (fieldY op)⟩
  , ⟨0x8006, 0xF00F, fun op => .shr (fieldX op) (fieldY op)⟩
  , ⟨0x8007, 0xF00F, fun op => .subn (fieldX op) (fieldY op)⟩
  , ⟨0x800E, 0xF00F, fun op => .shl (fieldX op) (fieldY op)⟩
  , ⟨0x9000, 0xF00F, fun op => .sneReg (fieldX op) (fieldY op)⟩ ]

/-- Rows 21 to 31 of R86. -/
def opcodeRowsC : List OpcodeRow :=
  [ ⟨0xA000, 0xF000, fun op => .ldI (fieldNNN op)⟩
  , ⟨0xB000, 0xF000, fun op => .jpV0 (fieldNNN op)⟩
  , ⟨0xC000, 0xF000, fun op => .rnd (fieldX op) (fieldNN op)⟩
  , ⟨0xD000, 0xF000, fun op => .drw (fieldX op) (fieldY op) (fieldN op)⟩
  , ⟨0xE09E, 0xF0FF, fun op => .skp (fieldX op)⟩
  , ⟨0xE0A1, 0xF0FF, fun op => .sknp (fieldX op)⟩
  , ⟨0xF007, 0xF0FF, fun op => .ldVxDt (fieldX op)⟩
  , ⟨0xF00A, 0xF0FF, fun op => .ldVxK (fieldX op)⟩
  , ⟨0xF015, 0xF0FF, fun op => .ldDtVx (fieldX op)⟩
  , ⟨0xF018, 0xF0FF, fun op => .ldStVx (fieldX op)⟩
  , ⟨0xF01E, 0xF0FF, fun op => .addI (fieldX op)⟩ ]

/-- The complete opcode map, one row per instruction, in the document's order (R86). -/
def opcodeRows : List OpcodeRow := opcodeRowsA ++ opcodeRowsB ++ opcodeRowsC

/-- The decode function as R85 writes it: the first row that matches, `Illegal(op)` if none does. `decode` is the same
function written by the keys of R84. -/
def decodeByRows (op : Word) : Except DecodeError Instr :=
  match opcodeRows.find? (fun r => r.accepts op) with
  | some r => .ok (r.build op)
  | none => .error (.illegal op)

/-! ### Encoding -/

/-- A register number as the nibble that names it (R81). -/
def Reg.bits (x : Reg) : Nibble := BitVec.ofFin x

/-- Format `NNN` (R82). -/
def formatNNN (top : Nibble) (nnn : Address12) : Word := top ++ nnn

/-- Format `XNN` (R82). -/
def formatXNN (top : Nibble) (x : Reg) (nn : Byte) : Word := top ++ x.bits ++ nn

/-- Formats `XY` and `XYN` (R82): the low nibble is the sub-opcode or `N`. -/
def formatXYN (top : Nibble) (x y : Reg) (n : Nibble) : Word := top ++ x.bits ++ y.bits ++ n

/-- The word of an instruction, from the patterns of R86. -/
def encode : Instr → Word
  | .nop => 0x0000#16
  | .cls => 0x00E0#16
  | .ret => 0x00EE#16
  | .jp nnn => formatNNN 0x1#4 nnn
  | .call nnn => formatNNN 0x2#4 nnn
  | .seImm x nn => formatXNN 0x3#4 x nn
  | .sneImm x nn => formatXNN 0x4#4 x nn
  | .seReg x y => formatXYN 0x5#4 x y 0x0#4
  | .ldImm x nn => formatXNN 0x6#4 x nn
  | .addImm x nn => formatXNN 0x7#4 x nn
  | .ldReg x y => formatXYN 0x8#4 x y 0x0#4
  | .orReg x y => formatXYN 0x8#4 x y 0x1#4
  | .andReg x y => formatXYN 0x8#4 x y 0x2#4
  | .xorReg x y => formatXYN 0x8#4 x y 0x3#4
  | .addReg x y => formatXYN 0x8#4 x y 0x4#4
  | .subReg x y => formatXYN 0x8#4 x y 0x5#4
  | .shr x y => formatXYN 0x8#4 x y 0x6#4
  | .subn x y => formatXYN 0x8#4 x y 0x7#4
  | .shl x y => formatXYN 0x8#4 x y 0xE#4
  | .sneReg x y => formatXYN 0x9#4 x y 0x0#4
  | .ldI nnn => formatNNN 0xA#4 nnn
  | .jpV0 nnn => formatNNN 0xB#4 nnn
  | .rnd x nn => formatXNN 0xC#4 x nn
  | .drw x y n => formatXYN 0xD#4 x y n
  | .skp x => formatXNN 0xE#4 x 0x9E#8
  | .sknp x => formatXNN 0xE#4 x 0xA1#8
  | .ldVxDt x => formatXNN 0xF#4 x 0x07#8
  | .ldVxK x => formatXNN 0xF#4 x 0x0A#8
  | .ldDtVx x => formatXNN 0xF#4 x 0x15#8
  | .ldStVx x => formatXNN 0xF#4 x 0x18#8
  | .addI x => formatXNN 0xF#4 x 0x1E#8

end Sys2Proof
end

