-- ==== Sys2Proof/Config.lean ====
section
/-! DEFINITION. What the spec leaves free (00_scope.md R6). Every size is fixed (R5) and no parameter of the model; the two
parameters the spec gives a default for, FONT and MEM_FILL, are in Machine/Parameters.lean. -/

namespace Sys2Proof

/-- The random source of `CXNN` (42_index_random.md R172): the byte of the `k`-th draw, under no law. It has no body,
so a claim holds for every sequence of draws. DESIGN CHOICE that draws are numbered (log 2). Safe. -/
opaque Config.randomByte (k : Nat) : Byte

end Sys2Proof
end

