-- ==== Sys2Proof/Machine/Parameters.lean ====
section
/-! DEFINITION. The two parameters the spec gives a default for (00_scope.md R6): the font and the fill byte, and with them
what memory holds after reset (10_state.md R24, R25, R34). -/

namespace Sys2Proof.Machine

/-- Glyphs 0 to 7 of `FONT`, five rows each. -/
def fontLow : List Byte :=
  [ 0xF0, 0x90, 0x90, 0x90, 0xF0,  0x20, 0x60, 0x20, 0x20, 0x70
  , 0xF0, 0x10, 0xF0, 0x80, 0xF0,  0xF0, 0x10, 0xF0, 0x10, 0xF0
  , 0x90, 0x90, 0xF0, 0x10, 0x10,  0xF0, 0x80, 0xF0, 0x10, 0xF0
  , 0xF0, 0x80, 0xF0, 0x90, 0xF0,  0xF0, 0x10, 0x20, 0x40, 0x40 ]

/-- Glyphs 8 to F of `FONT`, five rows each. -/
def fontHigh : List Byte :=
  [ 0xF0, 0x90, 0xF0, 0x90, 0xF0,  0xF0, 0x90, 0xF0, 0x10, 0xF0
  , 0xF0, 0x90, 0xF0, 0x90, 0x90,  0xE0, 0x90, 0xE0, 0x90, 0xE0
  , 0xF0, 0x80, 0x80, 0x80, 0xF0,  0xE0, 0x90, 0x90, 0x90, 0xE0
  , 0xF0, 0x80, 0xF0, 0x80, 0xF0,  0xF0, 0x80, 0xF0, 0x80, 0x80 ]

/-- `FONT`, 80 bytes, at the default R24 gives it. PRESUMED: R24 marks the bytes as general knowledge (log 3). Unsafe;
no statement of the package rests on a byte of it. -/
def font : List Byte := fontLow ++ fontHigh

/-- `MEM_FILL`, what the cells above the font hold after reset (R25). DESIGN CHOICE D4 (log 4). Unsafe. -/
def memFill : Byte := 0x00

/-- What the cell at an address holds after reset (R24, R25, R34), and so what an unlisted address reads as. -/
def memReset (a : Nat) : Byte := if a < 80 then font.getD a memFill else memFill

end Sys2Proof.Machine
end

