-- ==== Sys2Proof/Machine/State.lean ====
section
/-! DEFINITION. The state of the machine (10_state.md R20), the reasons a step stops, and the state after reset (R34). -/

namespace Sys2Proof.Machine

/-- Memory as the list of its cells that differ from what reset leaves there (`memReset`, Machine/Parameters.lean):
addresses strictly rising, each below 4096 (`Memory.wf`, Machine/Ops.lean). -/
abbrev Memory := List Host.Cell

/-- The framebuffer, 2048 pixels in 32 rows of 64 (R28): bit `x` of row `y` is the pixel `fb[x + 64*y]` of the spec
(log 14). -/
abbrev Framebuffer := Vector (BitVec 64) 32

/-- The whole state: the record of R20 and, last, the one field that is the model's own. -/
structure State where
  /-- Program counter, 16 bits (R23). -/
  pc : Word
  /-- The one memory of 4096 bytes (R24, R50). -/
  mem : Memory
  /-- The general registers V0 to VF (R21); register 15 is the flag register (R22). -/
  v : Vector Byte 16
  /-- The index register `I`, 16 bits (R26). -/
  i : Word
  /-- The call stack, 16 return addresses; entries from `sp` up are dead (R27). -/
  stack : Vector Word 16
  /-- The number of return addresses held, 0 to 16 (R27). -/
  sp : Fin 17
  /-- The framebuffer (R28). -/
  fb : Framebuffer
  /-- The 16 key bits, bit `k` set while key `k` is pressed (R29). -/
  keys : BitVec 16
  /-- The delay timer (R30, R31). -/
  dt : Byte
  /-- The sound timer (R30, R31). -/
  st : Byte
  /-- The MODEL's own: how many random bytes have been drawn, so that each executed `CXNN` takes a fresh one (R172;
  log 2). No piece of the machine. -/
  draws : Nat
  deriving DecidableEq, Repr

/-- The six failure kinds (60_exceptions.md R220). A failed transaction changes nothing (R228) and there is no trap
entry (R229): "a failed `step` is a **fault**" (R230). -/
inductive Fault where
  /-- `CALL` with 16 return addresses held (R221). Raised by `execCall`. Safe: the spec's own failure. -/
  | stackOverflow
  /-- `RET` with none held (R222). Raised by `execRet`. Safe: the spec's own failure. -/
  | stackUnderflow
  /-- The fetched word matches no row of the opcode map; carries the word (R223). Raised by `step`. Safe: the spec's own
  failure (which words match rests on D6, log 7, safe). -/
  | invalidOpcode (op : Word)
  /-- A fetch or a sprite read beyond address 4095; carries the lowest offending address (R224; the payload is D3,
  log 6). Raised by `fetch` and `execDrw`. Safe: the spec's own failure (no wrap of `I + row`: D10, log 10). -/
  | outOfBoundsMemoryAccess (a : Nat)
  /-- `load` of more than 3584 bytes; carries the length (R226; the payload is D3, log 6). Raised by `load`, never by
  `step`. Safe: the spec's own failure. -/
  | romTooLarge (length : Nat)
  /-- A key number of 16 or more, which it carries (R225). Raised by `setKey`, `execSkp` and `execSknp` (for the
  instructions by D9, log 9). Safe: the spec's own failure. -/
  | invalidKeyIndex (k : Nat)
  deriving DecidableEq, Repr

/-- Why the model gives an instruction no meaning. Every instruction has one, so no step is refused. -/
inductive Refusal where
  /-- Raised by an arm of `exec` whose instruction has no meaning yet: none. Safe. -/
  | notModelled (mnemonic : String)
  deriving DecidableEq, Repr

/-- The outcome of a step, and of a transaction that can fail. -/
abbrev Outcome := Host.Outcome State Fault Refusal

/-- The state after construction and after `reset` (R34, R260, R261). Memory lists nothing: it reads as `memReset`.
`draws` is the model's own; 0 is a DESIGN CHOICE (log 2). -/
def State.reset : State where
  pc := 0x200
  mem := []
  v := Vector.replicate 16 0
  i := 0
  stack := Vector.replicate 16 0
  sp := 0
  fb := Vector.replicate 32 0
  keys := 0
  dt := 0
  st := 0
  draws := 0

end Sys2Proof.Machine
end

