-- ==== Sys2Proof/Machine/Ops.lean ====
section
/-! DEFINITION. The operations every meaning is written over: failing, memory, registers, the program counter, the call
stack, the framebuffer and the keys (00_scope.md R9 to R12, 10_state.md R21 to R31, 20_memory.md). -/

namespace Sys2Proof.Machine

/-! ### Failing -/

/-- `raise K(info)` (R12): the transaction stops and returns the failure. This is the machine's whole exception
mechanism: no state is saved or changed, no vector is read (R228, R229), and there is nothing to return from (R230;
D21, log 25). That the state is the one before the transaction, `pc` included, is said by `commit` (Machine/Transactions.lean). -/
def raise (k : Fault) : Outcome := .fault k

/-! ### Memory (20_memory.md) -/

/-- The byte at an address: the listed one, else what reset left there (R24, R25). -/
def Memory.read : Memory → Nat → Byte
  | [], a => memReset a
  | c :: m, a => if c.1 = a then c.2 else Memory.read m a

/-- Put a cell in front of a memory whose addresses lie above it, unless it holds what reset left there. -/
def Memory.consCell (a : Nat) (b : Byte) (m : Memory) : Memory :=
  if b = memReset a then m else (a, b) :: m

/-- `MemWrite(a, 1, b)` (R12): used by `load` only, never by an instruction (R55), with `a <= 4095`. -/
def Memory.write : Memory → Nat → Byte → Memory
  | [], a, b => Memory.consCell a b []
  | c :: m, a, b =>
    if a < c.1 then Memory.consCell a b (c :: m)
    else if a = c.1 then Memory.consCell a b m
    else c :: Memory.write m a b

/-- Write the bytes at `a`, `a + 1` and so on. The addresses differ, so the order of the writes does not matter. -/
def Memory.writeBytes (m : Memory) (a : Nat) : List Byte → Memory
  | [] => m
  | b :: bs => Memory.write (Memory.writeBytes m (a + 1) bs) a b

/-- The two bytes of an instruction word written at an address, the high byte first (R51). -/
def placeWord (m : Memory) (a : Nat) (op : Word) : Memory :=
  Memory.writeBytes m a [highByte op, lowByte op]

/-- Every address is at least `lo` and below 4096, they rise strictly, and no cell holds what reset left there. -/
def Memory.wfFrom (lo : Nat) : Memory → Bool
  | [] => true
  | c :: m => decide (lo ≤ c.1) && decide (c.1 < 4096) && decide (c.2 ≠ memReset c.1) && Memory.wfFrom (c.1 + 1) m

/-- The canonical form of a memory: equal contents are equal lists. -/
def Memory.wf (m : Memory) : Bool := Memory.wfFrom 0 m

/-- The one check on an address (R53, R56, R59): the failure of an access to the `len` bytes from `a` on, if there is
one. `a` is a natural number, reduced to no width (D10, log 10); no byte accessed, no test (R182); the payload is the
lowest offending address (D3, log 6). -/
def boundsFailure (a len : Nat) : Option Fault :=
  if 1 ≤ len ∧ a + len - 1 > 4095 then some (.outOfBoundsMemoryAccess (max a 4096)) else none

/-- Fetch (R51 to R53): the word at `pc`, big-endian, at any address up to 4094, odd or even (R54). -/
def fetch (s : State) : Except Fault Word :=
  match boundsFailure s.pc.toNat 2 with
  | some f => .error f
  | none => .ok (joinBytes (Memory.read s.mem s.pc.toNat) (Memory.read s.mem (s.pc.toNat + 1)))

/-! ### Registers (R21, R22, R26, R30) -/

/-- `V[x]`. -/
def State.reg (s : State) (x : Reg) : Byte := s.v[x.val]

/-- `V[x] <- b`. No register is hardwired (R21). -/
def State.setReg (s : State) (x : Reg) (b : Byte) : State := { s with v := s.v.set x.val b }

/-- `VF <- b` (R22). -/
def State.setFlag (s : State) (b : Byte) : State := s.setReg Reg.flag b

/-- `I <- w`. -/
def State.setI (s : State) (w : Word) : State := { s with i := w }

/-- `DT <- b`. -/
def State.setDt (s : State) (b : Byte) : State := { s with dt := b }

/-- `ST <- b`. -/
def State.setSt (s : State) (b : Byte) : State := { s with st := b }

/-! ### The program counter (R11, R23, R111) -/

/-- `npc`, the address after the instruction at `pc` (R11). It is computed at 16 bits; at a `pc` that can be fetched
from it does not overflow (R23; log 19). -/
def State.npc (s : State) : Word := s.pc + 2

/-- `pc <- target`. -/
def State.setPc (s : State) (target : Word) : State := { s with pc := target }

/-- `pc <- npc`: the default end of an instruction (R111). -/
def State.advance (s : State) : State := s.setPc s.npc

/-- `pc <- npc + 2` if the condition holds, else `pc <- npc` (R111). -/
def State.skipIf (s : State) (c : Bool) : State := s.setPc (if c then s.npc + 2 else s.npc)

/-! ### The call stack (R27) -/

/-- `push(w)`: into `stack[SP]` (D12, log 11). -/
def State.push (s : State) (w : Word) : Except Fault State :=
  if h : s.sp.val < 16 then
    .ok { s with stack := s.stack.set s.sp.val w h, sp := ⟨s.sp.val + 1, by omega⟩ }
  else .error .stackOverflow

/-- `pop()`: the entry stays in the array, dead. -/
def State.pop (s : State) : Except Fault (Word × State) :=
  if s.sp.val = 0 then .error .stackUnderflow
  else .ok (s.stack[s.sp.val - 1]'(by omega), { s with sp := ⟨s.sp.val - 1, by omega⟩ })

/-! ### The framebuffer (R28) -/

/-- `pix(x mod 64, y mod 32)`: the pixel of a column and a row, wrapped onto the grid (R28, R181). -/
def pix (fb : Framebuffer) (x y : Nat) : Bool :=
  (fb[y % 32]'(Nat.mod_lt _ (by decide))).getLsbD (x % 64)

/-- XOR the pixel of a column and a row, wrapped onto the grid, with 1 (R181). -/
def togglePix (fb : Framebuffer) (x y : Nat) : Framebuffer :=
  fb.set (y % 32) ((fb[y % 32]'(Nat.mod_lt _ (by decide))) ^^^ (1#64 <<< (x % 64))) (Nat.mod_lt _ (by decide))

/-- All 2048 pixels unlit. -/
def clearScreen : Framebuffer := Vector.replicate 32 0

/-! ### The keys (R29) -/

/-- `keys[k]`: is key `k` pressed? -/
def State.keyDown (s : State) (k : Nat) : Bool := s.keys.getLsbD k

/-- The pressed key of the least index, if one is pressed (R193). -/
def State.firstKey (s : State) : Option Nat := (List.range 16).find? s.keyDown

/-! ### The random source (R172) -/

/-- `draw8()`: the next byte of the source and the state after the draw (log 2). -/
def State.draw8 (s : State) : Byte × State :=
  (Config.randomByte s.draws, { s with draws := s.draws + 1 })

end Sys2Proof.Machine
end

