-- ==== Sys2Proof/Machine/Operands.lean ====
section
/-! DEFINITION. The operand forms (30_encoding.md R83): registers, and immediates that are unsigned and never sign-extended,
scaled or shifted. `NN` and `N` are used as they stand; the forms that need an operation are here. -/

namespace Sys2Proof.Machine

/-- `zext_16(NNN)`: a 12-bit immediate where 16 bits are needed (R83, R114, R170). -/
def zextNNN (nnn : Address12) : Word := nnn.setWidth 16

/-- `zext_16(V[x])`: a register where 16 bits are needed (R118, R171). -/
def State.regWide (s : State) (x : Reg) : Word := (s.reg x).setWidth 16

/-- The implicit operand of `BNNN`: always `V[0]`, whatever bits 11 to 8 hold (R118). -/
def State.regZeroWide (s : State) : Word := s.regWide 0

/-- The number of rows an `N` field asks for (R83). -/
def rowCount (n : Nibble) : Nat := n.toNat

end Sys2Proof.Machine
end

