-- ==== Sys2Proof/Machine/Flags.lean ====
section
/-! DEFINITION. What the flag writers put into VF (10_state.md R22, 41_alu.md R146 to R150, R153). VF becomes the whole byte
`0x00` or `0x01`. -/

namespace Sys2Proof.Machine

/-- A condition as the byte VF gets (R22). -/
def flagByte (c : Bool) : Byte := if c then 0x01 else 0x00

/-- `8XY4`: 1 if `a + b > 255` (R146). -/
def carryFlag (a b : Byte) : Byte := flagByte (decide (a.toNat + b.toNat > 255))

/-- `8XY5`, `8XY7`: 1 if the subtraction minuend - subtrahend does not borrow (R147, R149). -/
def notBorrowFlag (minuend subtrahend : Byte) : Byte := flagByte (decide (minuend.toNat ≥ subtrahend.toNat))

/-- `8XY6`: bit 0 (R148). -/
def lowBitFlag (a : Byte) : Byte := flagByte (a.getLsbD 0)

/-- `8XYE`: bit 7 (R150). -/
def highBitFlag (a : Byte) : Byte := flagByte (a.getLsbD 7)

end Sys2Proof.Machine
end

