-- ==== Sys2Proof/Machine/Alu.lean ====
section
/-! DEFINITION. The meanings of the load, arithmetic, logic and shift instructions (41_alu.md R140 to R153). The two writes of
a flag writer happen in the order its rule writes them, which decides VF when `X` is 15 (R152; D7, log 8). -/

namespace Sys2Proof.Machine

/-- `6XNN` LD (R140). -/
def execLdImm (x : Reg) (nn : Byte) (s : State) : Outcome := .next (s.setReg x nn).advance

/-- `7XNN` ADD (R141): wraps, sets no flag. -/
def execAddImm (x : Reg) (nn : Byte) (s : State) : Outcome := .next (s.setReg x (s.reg x + nn)).advance

/-- `8XY0` LD (R142). -/
def execLdReg (x y : Reg) (s : State) : Outcome := .next (s.setReg x (s.reg y)).advance

/-- `8XY1` OR (R143): VF is left alone (R151). -/
def execOrReg (x y : Reg) (s : State) : Outcome := .next (s.setReg x (s.reg x ||| s.reg y)).advance

/-- `8XY2` AND (R144): VF is left alone (R151). -/
def execAndReg (x y : Reg) (s : State) : Outcome := .next (s.setReg x (s.reg x &&& s.reg y)).advance

/-- `8XY3` XOR (R145): VF is left alone (R151). -/
def execXorReg (x y : Reg) (s : State) : Outcome := .next (s.setReg x (s.reg x ^^^ s.reg y)).advance

/-- `8XY4` ADD (R146): the sum, then the carry. -/
def execAddReg (x y : Reg) (s : State) : Outcome :=
  let a := s.reg x
  let b := s.reg y
  .next ((s.setReg x (a + b)).setFlag (carryFlag a b)).advance

/-- `8XY5` SUB (R147): the difference, then the flag. -/
def execSubReg (x y : Reg) (s : State) : Outcome :=
  let a := s.reg x
  let b := s.reg y
  .next ((s.setReg x (a - b)).setFlag (notBorrowFlag a b)).advance

/-- `8XY6` SHR (R148): the flag, then the shift of `V[X]` as it is after the flag write; `Y` is ignored (R151). -/
def execShr (x _y : Reg) (s : State) : Outcome :=
  let t := s.setFlag (lowBitFlag (s.reg x))
  .next (t.setReg x (t.reg x >>> 1)).advance

/-- `8XY7` SUBN (R149): the difference, then the flag; the flag's condition is derived from R147 (log 20). -/
def execSubn (x y : Reg) (s : State) : Outcome :=
  let a := s.reg x
  let b := s.reg y
  .next ((s.setReg x (b - a)).setFlag (notBorrowFlag b a)).advance

/-- `8XYE` SHL (R150): the flag, then the shift of `V[X]` as it is after the flag write; `Y` is ignored (R151). -/
def execShl (x _y : Reg) (s : State) : Outcome :=
  let t := s.setFlag (highBitFlag (s.reg x))
  .next (t.setReg x (t.reg x <<< 1)).advance

end Sys2Proof.Machine
end

