-- ==== Sys2Proof/Machine/Display.lean ====
section
/-! DEFINITION. The meanings of the display instructions (43_display.md R180 to R184). -/

namespace Sys2Proof.Machine

/-- What a drawing in progress holds: the pixels and whether one has gone from lit to unlit (R181). -/
structure Canvas where
  fb : Framebuffer
  collision : Bool
  deriving DecidableEq, Repr

/-- One set bit of a sprite: "OR a "collision" flag with the pixel's current lit state, then XOR-toggle that pixel"
(R181). -/
def toggleAt (c : Canvas) (x y : Nat) : Canvas :=
  { fb := togglePix c.fb x y, collision := c.collision || pix c.fb x y }

/-- One row of a sprite from column `x0` on; column 0 is bit 7 (R181). -/
def drawRow (b : Byte) (x0 y : Nat) (c : Canvas) : Canvas :=
  (List.range 8).foldl (fun c column => if b.getLsbD (7 - column) then toggleAt c (x0 + column) y else c) c

/-- The `n` rows of a sprite whose bytes start at `a` (R181). -/
def drawRows (m : Memory) (a n x0 y0 : Nat) (c : Canvas) : Canvas :=
  (List.range n).foldl (fun c row => drawRow (Memory.read m (a + row)) x0 (y0 + row) c) c

/-- `00E0` CLS (R180). -/
def execCls (s : State) : Outcome := .next { s with fb := clearScreen }.advance

/-- `DXYN` DRW (R181): the whole range of row addresses is tested before anything is written (R183), the coordinates
are read before VF is written, and VF is written last, also when `N` is 0 (R182). -/
def execDrw (x y : Reg) (n : Nibble) (s : State) : Outcome :=
  match boundsFailure s.i.toNat (rowCount n) with
  | some f => raise f
  | none =>
    let c := drawRows s.mem s.i.toNat (rowCount n) (s.reg x).toNat (s.reg y).toNat ⟨s.fb, false⟩
    .next ({ s with fb := c.fb }.setFlag (flagByte c.collision)).advance

end Sys2Proof.Machine
end

