-- ==== Sys2Proof/Machine/Flow.lean ====
section
/-! DEFINITION. The meanings of the control-flow instructions (40_flow.md R112 to R124). -/

namespace Sys2Proof.Machine

/-- `0000` NOP (R112). -/
def execNop (s : State) : Outcome := .next s.advance

/-- `00EE` RET (R113): the popped value is used as it is. -/
def execRet (s : State) : Outcome :=
  match s.pop with
  | .error f => raise f
  | .ok (target, t) => .next (t.setPc target)

/-- `1NNN` JP (R114): the target is not checked. -/
def execJp (nnn : Address12) (s : State) : Outcome := .next (s.setPc (zextNNN nnn))

/-- `2NNN` CALL (R116): pushes `npc`. -/
def execCall (nnn : Address12) (s : State) : Outcome :=
  match s.push s.npc with
  | .error f => raise f
  | .ok t => .next (t.setPc (zextNNN nnn))

/-- `BNNN` JP V0 (R118): the sum is not reduced to 12 bits (D13, log 12). -/
def execJpV0 (nnn : Address12) (s : State) : Outcome := .next (s.setPc (s.regZeroWide + zextNNN nnn))

/-- `3XNN` SE (R119). -/
def execSeImm (x : Reg) (nn : Byte) (s : State) : Outcome := .next (s.skipIf (s.reg x == nn))

/-- `4XNN` SNE (R120). -/
def execSneImm (x : Reg) (nn : Byte) (s : State) : Outcome := .next (s.skipIf (s.reg x != nn))

/-- `5XY0` SE (R121). -/
def execSeReg (x y : Reg) (s : State) : Outcome := .next (s.skipIf (s.reg x == s.reg y))

/-- `9XY0` SNE (R122). -/
def execSneReg (x y : Reg) (s : State) : Outcome := .next (s.skipIf (s.reg x != s.reg y))

end Sys2Proof.Machine
end

