-- ==== Sys2Proof/Machine/IndexRandom.lean ====
section
/-! DEFINITION. The meanings of the index register and random instructions (42_index_random.md R170 to R173). -/

namespace Sys2Proof.Machine

/-- `ANNN` LD I (R170). -/
def execLdI (nnn : Address12) (s : State) : Outcome := .next (s.setI (zextNNN nnn)).advance

/-- `FX1E` ADD I (R171): wraps at 16 bits, sets no flag (log 20). -/
def execAddI (x : Reg) (s : State) : Outcome := .next (s.setI (s.i + s.regWide x)).advance

/-- `CXNN` RND with the byte `r` drawn (R173). -/
def execRndWith (r : Byte) (x : Reg) (nn : Byte) (s : State) : Outcome := .next (s.setReg x (r &&& nn)).advance

/-- `CXNN` RND (R173): one fresh draw (R172). -/
def execRnd (x : Reg) (nn : Byte) (s : State) : Outcome :=
  execRndWith s.draw8.1 x nn s.draw8.2

end Sys2Proof.Machine
end

