-- ==== Sys2Proof/Machine/KeypadTimers.lean ====
section
/-! DEFINITION. The meanings of the keypad and timer instructions (44_keypad_timers.md R190 to R196). -/

namespace Sys2Proof.Machine

/-- The number of the key `V[x]`, or the failure of a number above 15 (R192; D9, log 9). -/
def keyOperand (s : State) (x : Reg) : Except Fault Nat :=
  if (s.reg x).toNat ≥ 16 then .error (.invalidKeyIndex (s.reg x).toNat) else .ok (s.reg x).toNat

/-- `EX9E` SKP (R190). -/
def execSkp (x : Reg) (s : State) : Outcome :=
  match keyOperand s x with
  | .error f => raise f
  | .ok k => .next (s.skipIf (s.keyDown k))

/-- `EXA1` SKNP (R191). -/
def execSknp (x : Reg) (s : State) : Outcome :=
  match keyOperand s x with
  | .error f => raise f
  | .ok k => .next (s.skipIf (!s.keyDown k))

/-- `FX0A` LD Vx, K (R193): the pressed key of the least index; with none pressed `pc` goes back to this instruction. -/
def execLdVxK (x : Reg) (s : State) : Outcome :=
  match s.firstKey with
  | some k => .next (s.setReg x (BitVec.ofNat 8 k)).advance
  | none => .next (s.setPc (s.npc - 2))

/-- `FX07` LD Vx, DT (R194). -/
def execLdVxDt (x : Reg) (s : State) : Outcome := .next (s.setReg x s.dt).advance

/-- `FX15` LD DT, Vx (R195). -/
def execLdDtVx (x : Reg) (s : State) : Outcome := .next (s.setDt (s.reg x)).advance

/-- `FX18` LD ST, Vx (R196). -/
def execLdStVx (x : Reg) (s : State) : Outcome := .next (s.setSt (s.reg x)).advance

end Sys2Proof.Machine
end

