-- ==== Sys2Proof/Machine/Step.lean ====
section
/-! DEFINITION. The `step` transaction (40_flow.md R110) and the host's way to place an instruction. -/

namespace Sys2Proof.Machine

/-- `step`: fetch, decode and execute exactly one instruction, failing in that order (R110, R232). A failure is a fault;
the state is then the one before the step (R228; D2, log 5), as `transact` says. -/
def step (s : State) : Host.Outcome State Fault Refusal :=
  match fetch s with
  | .error f => raise f
  | .ok op =>
    match decode op with
    | .error _ => raise (.invalidOpcode op)
    | .ok i => exec i s

/-- `s` with the word whose low `nbits` bits are `w`'s stored at `pc`, where `step` fetches next. It stands for a `load`
(R202; log 13). Where no instruction can be fetched (`pc` of 4095 or more, R53) nothing is stored. -/
def State.withFetchWord (s : State) (nbits w : Nat) : State :=
  if s.pc.toNat + 1 > 4095 then s
  else { s with mem := placeWord s.mem s.pc.toNat (BitVec.ofNat 16 (w % 2 ^ nbits)) }

end Sys2Proof.Machine
end

