-- ==== Sys2Proof/Machine/Transactions.lean ====
section
/-! DEFINITION. The six transactions that drive the machine (45_host_operations.md R200 to R211) and the response each gives
(60_exceptions.md R220, R227, R228). -/

namespace Sys2Proof.Machine

/-- A request (R209). `step` takes its random byte from the source, when its instruction draws one (R172; log 2). -/
inductive Transaction where
  | step
  | tickTimers
  /-- `index` is 8 bits (R207; D18, log 15). -/
  | setKey (index : Byte) (pressed : Bool)
  | load (rom : List Byte)
  | display
  | reset
  deriving DecidableEq, Repr

/-- What a transaction returns (R209): `ok` with the outputs it has, or the failure. -/
inductive Response where
  | ok
  /-- `tick_timers`: `ok` and `sound_stop` (R205, R206). -/
  | ticked (soundStop : Bool)
  /-- `display`: the pixels (R208). -/
  | displayed (pixels : Framebuffer)
  | failed (f : Fault)
  /-- No transaction of the spec: the model gives the instruction no meaning. Never returned. -/
  | refused (r : Refusal)
  deriving DecidableEq, Repr

/-- The numeric code of a failure kind (R220; D3, log 6); `ok` is 0. -/
def failureCode : Fault → Nat
  | .stackOverflow => 1
  | .stackUnderflow => 2
  | .invalidOpcode _ => 3
  | .outOfBoundsMemoryAccess _ => 4
  | .romTooLarge _ => 5
  | .invalidKeyIndex _ => 6

/-- The code on the result port (R209, R220). -/
def responseCode : Response → Nat
  | .ok | .ticked _ | .displayed _ => 0
  | .failed f => failureCode f
  | .refused _ => 7

/-- A timer that stops at 0 (R31, R205). -/
def tickDown (b : Byte) : Byte := if b.toNat > 0 then b - 1 else b

/-- The state after `tick_timers()` (R205). -/
def tickTimers (s : State) : State := { s with dt := tickDown s.dt, st := tickDown s.st }

/-- `sound_stop`: this `tick_timers` takes `ST` from 1 to 0 (R205, R206). -/
def soundStop (s : State) : Bool := s.st == 1

/-- `st_value`, the always visible output (R206). -/
def stValue (s : State) : Byte := s.st

/-- `set_key(index, pressed)` (R207): the level is stored. -/
def setKey (index : Byte) (pressed : Bool) (s : State) : Outcome :=
  if index.toNat ≥ 16 then raise (.invalidKeyIndex index.toNat)
  else .next { s with keys := if pressed then s.keys ||| (1#16 <<< index.toNat) else s.keys &&& ~~~(1#16 <<< index.toNat) }

/-- `load(rom)` (R202 to R204): memory from 0x200, nothing else. -/
def load (rom : List Byte) (s : State) : Outcome :=
  if rom.length > 3584 then raise (.romTooLarge rom.length)
  else .next { s with mem := Memory.writeBytes s.mem 0x200 rom }

/-- `display()` (R208): the pixels, as they are. -/
def display (s : State) : Framebuffer := s.fb

/-- Pixel `k` of the 2048 the display port gives, column `k mod 64` of row `k / 64` (R28, R208). -/
def displayBit (s : State) (k : Nat) : Bool := pix s.fb (k % 64) (k / 64)

/-- The state after `reset()` (R201): the reset state; the random source is not touched (D11, log 2). -/
def resetMachine (s : State) : State := { State.reset with draws := s.draws }

/-- The response and the state after a transaction that can fail: "A failure changes nothing" (R228; D2, log 5). -/
def commit (s : State) : Outcome → Response × State
  | .next t => (.ok, t)
  | .fault f => (.failed f, s)
  | .refused r => (.refused r, s)

/-- One transaction, atomic (R211): its response and the state after it. -/
def transact (r : Transaction) (s : State) : Response × State :=
  match r with
  | .step => commit s (step s)
  | .tickTimers => (.ticked (soundStop s), tickTimers s)
  | .setKey index pressed => commit s (setKey index pressed s)
  | .load rom => commit s (load rom s)
  | .display => (.displayed (display s), s)
  | .reset => (.ok, resetMachine s)

/-- The state after a sequence of transactions, in the order of issue (R60, R211; D20, log 24). -/
def transactAll : List Transaction → State → State
  | [], s => s
  | r :: rs, s => transactAll rs (transact r s).2

/-- The state after the first `n` transactions of a schedule (R212: every interleaving is a schedule). -/
def runSchedule (sched : Nat → Transaction) (s : State) : Nat → State
  | 0 => s
  | n + 1 => (transact (sched n) (runSchedule sched s n)).2

end Sys2Proof.Machine
end

