-- ==== Sys2Proof/Safety.lean ====
section
/-! DEFINITION. What claims about a run are made of: the facts true of every reachable state (10_state.md R35), the ends of a
run (45_host_operations.md R213), and the two schedule assumptions (R212). -/

namespace Sys2Proof

open Sys2Proof.Machine

/-- Every live stack entry is a possible `npc` (R27). -/
def StackLive (s : State) : Prop := ∀ j : Fin 16, j.val < s.sp.val → s.stack[j.val].toNat ≤ 4096

/-- The cells below 0x200 are as reset left them: the font and the fill (R24, R25). -/
def LowMemoryIntact (s : State) : Prop := ∀ a : Nat, a < 0x200 → Memory.read s.mem a = memReset a

/-- The facts true of every reachable state (R35), and the canonical form of memory. `SP` in 0 to 16 and the widths of
the registers are in the type of the state. -/
structure MachineInv (s : State) : Prop where
  memory : Memory.wf s.mem = true
  pc : s.pc.toNat ≤ 0x10FE
  stack : StackLive s
  low : LowMemoryIntact s

/-- A state some sequence of transactions leads to from reset (R35). -/
def Reachable (s : State) : Prop := ∃ rs : List Transaction, s = transactAll rs State.reset

/-- The run has ended normally: the instruction at `pc` is a jump to itself (R115, R213). -/
def EndedNormally (s : State) : Prop :=
  ∃ op nnn, fetch s = .ok op ∧ decode op = .ok (.jp nnn) ∧ s.pc = zextNNN nnn

/-- The run has failed: the next `step` returns a failure (R213). -/
def RunFailed (s : State) : Prop := ∃ f, step s = .fault f

/-- `n` steps and nothing between them, stopping at the first failure (R110, R213). -/
def runSteps : Nat → State → Outcome
  | 0, s => .next s
  | n + 1, s =>
    match step s with
    | .next t => runSteps n t
    | .fault f => .fault f
    | .refused r => .refused r

/-- A run of `n` steps with no failure: the premise "no transaction returned a failure" (R230). -/
def SafeRun (n : Nat) (s : State) : Prop := ∃ t, runSteps n s = .next t

/-- `TICK_FAIR` (R212): `tick_timers` is issued again and again. -/
def TickFair (sched : Nat → Transaction) : Prop := ∀ n, ∃ m, n ≤ m ∧ sched m = .tickTimers

/-- The instruction the next step executes, if there is one. -/
def NextInstr (s : State) (i : Instr) : Prop := ∃ op, fetch s = .ok op ∧ decode op = .ok i

/-- The program waits (R193): the next instruction is an `FX0A` and no key is pressed, so a step would change nothing. -/
def Waits (s : State) : Prop := (∃ x, NextInstr s (.ldVxK x)) ∧ ∀ k < 16, s.keyDown k = false

/-- The transaction reports a key down (R207). -/
def ReportsKey (r : Transaction) : Prop := ∃ k : Byte, k.toNat < 16 ∧ r = .setKey k true

/-- The transaction puts other bytes where the program is: `load` or `reset` (R25). -/
def ReplacesProgram (r : Transaction) : Prop := r = .reset ∨ ∃ rom, r = .load rom

/-- `KEY_EVENTUALLY` (R212): "some key is eventually reported down while the program waits". Whenever the run from `s`
waits, it goes on waiting up to a transaction that reports a key down, or one that takes the waiting program away
(a `load` or a `reset` ends the wait; log 17). -/
def KeyEventually (sched : Nat → Transaction) (s : State) : Prop :=
  ∀ n, Waits (runSchedule sched s n) →
    ∃ m, n ≤ m ∧ (∀ j, n ≤ j → j ≤ m → Waits (runSchedule sched s j)) ∧
      (ReportsKey (sched m) ∨ ReplacesProgram (sched m) ∧ ¬ Waits (runSchedule sched s (m + 1)))

/-! ### Frames (10_state.md R36) -/

/-- The pieces of state beside the V registers and `pc`. -/
inductive Part where
  | memory | index | stack | screen | keys | delay | sound | draws
  deriving DecidableEq, Repr

/-- The piece is the same in both states. Memory and the screen are compared as they are read: every byte, every pixel. -/
def Part.same : Part → State → State → Prop
  | .memory, s, t => ∀ a, Memory.read t.mem a = Memory.read s.mem a
  | .index, s, t => t.i = s.i
  | .stack, s, t => t.sp = s.sp ∧ ∀ j : Fin 16, t.stack[j.val] = s.stack[j.val]
  | .screen, s, t => ∀ x y, pix t.fb x y = pix s.fb x y
  | .keys, s, t => t.keys = s.keys
  | .delay, s, t => t.dt = s.dt
  | .sound, s, t => t.st = s.st
  | .draws, s, t => t.draws = s.draws

/-- Every piece not listed is unchanged. -/
def Frame (changed : List Part) (s t : State) : Prop := ∀ p, p ∉ changed → p.same s t

/-- Every V register not listed is unchanged. -/
def RegsKept (written : List Reg) (s t : State) : Prop := ∀ r, r ∉ written → t.reg r = s.reg r

/-- The register an instruction's rule writes as its destination, column "V" of R36. -/
def Instr.destination : Instr → List Reg
  | .ldImm x _ | .addImm x _ | .rnd x _ => [x]
  | .ldReg x _ | .orReg x _ | .andReg x _ | .xorReg x _ => [x]
  | .addReg x _ | .subReg x _ | .shr x _ | .subn x _ | .shl x _ => [x]
  | .ldVxDt x | .ldVxK x => [x]
  | .nop | .cls | .ret | .jp _ | .call _ | .seImm _ _ | .sneImm _ _ | .seReg _ _ | .sneReg _ _ | .ldI _ | .jpV0 _
  | .drw _ _ _ | .skp _ | .sknp _ | .ldDtVx _ | .ldStVx _ | .addI _ => []

/-- The six instructions that write VF as a flag on every execution (R22), column "VF as flag" of R36. -/
def Instr.writesFlag : Instr → Bool
  | .addReg _ _ | .subReg _ _ | .shr _ _ | .subn _ _ | .shl _ _ | .drw _ _ _ => true
  | .nop | .cls | .ret | .jp _ | .call _ | .seImm _ _ | .sneImm _ _ | .seReg _ _ | .sneReg _ _ | .ldImm _ _
  | .addImm _ _ | .ldReg _ _ | .orReg _ _ | .andReg _ _ | .xorReg _ _ | .ldI _ | .jpV0 _ | .rnd _ _ | .skp _
  | .sknp _ | .ldVxDt _ | .ldVxK _ | .ldDtVx _ | .ldStVx _ | .addI _ => false

/-- The V registers an instruction may write: its destination, and VF if it is a flag writer (R36). -/
def Instr.registersWritten (i : Instr) : List Reg :=
  i.destination ++ if i.writesFlag then [Reg.flag] else []

/-- The pieces of state an instruction may write beside the V registers and `pc`: the columns of R36 marked "w", and the
model's own draw counter for `CXNN`. -/
def Instr.partsWritten : Instr → List Part
  | .cls | .drw _ _ _ => [.screen]
  | .ret | .call _ => [.stack]
  | .ldI _ | .addI _ => [.index]
  | .rnd _ _ => [.draws]
  | .ldDtVx _ => [.delay]
  | .ldStVx _ => [.sound]
  | .nop | .jp _ | .seImm _ _ | .sneImm _ _ | .seReg _ _ | .sneReg _ _ | .ldImm _ _ | .addImm _ _ | .ldReg _ _
  | .orReg _ _ | .andReg _ _ | .xorReg _ _ | .addReg _ _ | .subReg _ _ | .shr _ _ | .subn _ _ | .shl _ _
  | .jpV0 _ | .skp _ | .sknp _ | .ldVxDt _ | .ldVxK _ => []

/-- Does the instruction read the keys (R29, R36)? -/
def Instr.readsKeys : Instr → Bool
  | .skp _ | .sknp _ | .ldVxK _ => true
  | .nop | .cls | .ret | .jp _ | .call _ | .seImm _ _ | .sneImm _ _ | .seReg _ _ | .sneReg _ _ | .ldImm _ _
  | .addImm _ _ | .ldReg _ _ | .orReg _ _ | .andReg _ _ | .xorReg _ _ | .addReg _ _ | .subReg _ _ | .shr _ _
  | .subn _ _ | .shl _ _ | .ldI _ | .jpV0 _ | .rnd _ _ | .drw _ _ _ | .ldVxDt _ | .ldDtVx _ | .ldStVx _
  | .addI _ => false

/-- An outcome with its next state, if it has one, changed. -/
def mapNext (f : State → State) : Outcome → Outcome
  | .next t => .next (f t)
  | .fault r => .fault r
  | .refused r => .refused r

/-! ### Sprites (43_display.md R181) -/

/-- A set bit of the sprite of `n` rows at `a`, drawn from column `x0` and row `y0` on, falls on the pixel of column `cx`
and row `cy`. -/
def SpriteCovers (m : Memory) (a n x0 y0 cx cy : Nat) : Prop :=
  ∃ row column, row < n ∧ column < 8 ∧ (Memory.read m (a + row)).getLsbD (7 - column) = true ∧
    cx = (x0 + column) % 64 ∧ cy = (y0 + row) % 32

/-! ### Reset (10_state.md R34) -/

/-- The table of R34, as the state is read. -/
structure IsResetState (s : State) : Prop where
  pc : s.pc = 0x200
  font : ∀ a < 80, Memory.read s.mem a = font.getD a 0
  fill : ∀ a, 80 ≤ a → Memory.read s.mem a = memFill
  regs : ∀ r, s.reg r = 0
  index : s.i = 0
  stack : ∀ j : Fin 16, s.stack[j.val] = 0
  sp : s.sp = 0
  screen : ∀ x y, pix s.fb x y = false
  keys : ∀ k, s.keyDown k = false
  dt : s.dt = 0
  st : s.st = 0

end Sys2Proof
end

