-- ==== Sys2Proof/Certificates/Slice0/Obligations.lean ====
section
/-! DEFINITION. The statements for the provers. `RegsKept` and `Frame` (Safety.lean) say what an instruction leaves unchanged:
every V register and every piece of state not listed, memory byte by byte. `pc` has a clause of its own. A clause
`decode (...) = .ok ...` is the pattern of the opcode map's row (30_encoding.md R86) written out as bits. -/

open Sys2Proof Sys2Proof.Machine

/-! ### Encoding (30_encoding.md) -/

/-- One word of every format and family, written out from the patterns of R86, decodes to the instruction it stands for. -/
def Obligations.SampleWordsDecode : Prop :=
  decode 0b0000000000000000#16 = .ok .nop ∧
  decode 0b0000000011101110#16 = .ok .ret ∧
  decode 0b0001101010111100#16 = .ok (.jp 0xABC) ∧
  decode 0b0011101001000010#16 = .ok (.seImm 10 0x42) ∧
  decode 0b0101000100100000#16 = .ok (.seReg 1 2) ∧
  decode 0b1000000100100100#16 = .ok (.addReg 1 2) ∧
  decode 0b1000001100111110#16 = .ok (.shl 3 3) ∧
  decode 0b1100000100001111#16 = .ok (.rnd 1 0x0F) ∧
  decode 0b1101000000010101#16 = .ok (.drw 0 1 5) ∧
  decode 0b1110000110011110#16 = .ok (.skp 1) ∧
  decode 0b1111001000001010#16 = .ok (.ldVxK 2) ∧
  decode 0b1111000100011110#16 = .ok (.addI 1)

/-- Decoding the word of an instruction gives the instruction back, with every operand: no bit of an encoding is
dropped, the ignored `Y` of the shifts included (R86, R90). -/
def Obligations.DecodeOfEncodeIsTheInstruction : Prop :=
  ∀ i : Instr, decode (encode i) = .ok i

/-- A word that decodes is the word of the instruction it decodes to (R86), so no two words decode to the same term of
`Instr`. That the terms of `8XY6` and `8XYE` keep `Y` is the model's own choice (log 22): R88 says all 16 values of `Y`
give the same instruction there, and `LogicKeepsFlagAndShiftsIgnoreY` says they have the same effect. -/
def Obligations.EncodeOfDecodeIsTheWord : Prop :=
  ∀ (op : Word) (i : Instr), decode op = .ok i → encode i = op

/-- The dispatch of R84 is the table lookup of R85: the first row with `op & mask = pattern`, illegal if there is none;
and no word matches two rows. Literal patterns are the spec's decision D6 (log 7). -/
def Obligations.DecodeIsTheMatchingRow : Prop :=
  (∀ op : Word, decode op = decodeByRows op) ∧
  (∀ op : Word, (opcodeRows.filter (fun r => r.accepts op)).length ≤ 1)

/-- The illegal words are exactly those of the table of R89 (literal patterns: the spec's decision D6, log 7). -/
def Obligations.IllegalWordsAreTheListedOnes : Prop :=
  ∀ op : Word, decode op = .error (.illegal op) ↔
    (op.toNat < 0x1000 ∧ op.toNat ≠ 0x0000 ∧ op.toNat ≠ 0x00E0 ∧ op.toNat ≠ 0x00EE) ∨
    (op.toNat / 0x1000 = 0x5 ∧ op.toNat % 16 ≠ 0) ∨
    (op.toNat / 0x1000 = 0x8 ∧ 8 ≤ op.toNat % 16 ∧ op.toNat % 16 ≠ 0xE) ∨
    (op.toNat / 0x1000 = 0x9 ∧ op.toNat % 16 ≠ 0) ∨
    (op.toNat / 0x1000 = 0xE ∧ op.toNat % 256 ≠ 0x9E ∧ op.toNat % 256 ≠ 0xA1) ∨
    (op.toNat / 0x1000 = 0xF ∧ op.toNat % 256 ≠ 0x07 ∧ op.toNat % 256 ≠ 0x0A ∧ op.toNat % 256 ≠ 0x15 ∧
      op.toNat % 256 ≠ 0x18 ∧ op.toNat % 256 ≠ 0x1E)

/-- `InvalidOpcode(op)` is what `step` returns exactly when the fetched word, `mem[pc] * 256 + mem[pc+1]`, is `op` and
matches no row of the opcode map (R223). -/
def Obligations.InvalidOpcodeExactlyForUnmatchedWords : Prop :=
  ∀ (s : State) (op : Word), step s = .fault (.invalidOpcode op) ↔
    s.pc.toNat ≤ 4094 ∧
    op.toNat = (Memory.read s.mem s.pc.toNat).toNat * 256 + (Memory.read s.mem (s.pc.toNat + 1)).toNat ∧
    ∀ r ∈ opcodeRows, op &&& r.mask ≠ r.pattern

/-! ### Control flow (40_flow.md) -/

/-- `0000` (R112): only the word 0x0000 is this instruction (0x0001 is illegal), and it only advances `pc`. -/
def Obligations.NopOnlyAdvances : Prop :=
  (∀ op : Word, decode op = .ok .nop ↔ op = 0x0000) ∧ decode 0x0001 = .error (.illegal 0x0001) ∧
  ∀ s : State, ∃ t, exec .nop s = .next t ∧ t.pc = s.pc + 2 ∧ RegsKept [] s t ∧ Frame [] s t

/-- `00EE`: pops the newest return address into `pc` (R113). That this is the cell `stack[SP - 1]` and that every cell,
the popped one included, keeps its value is the spec's decision D12 (log 11). With an empty stack it fails with
`StackUnderflow`, and the step changes nothing (that `pc` too is unchanged: the spec's decision D2, log 5). -/
def Obligations.RetPopsIntoPc : Prop :=
  (∀ (s : State) (h : s.sp.val ≠ 0), ∃ t, exec .ret s = .next t ∧ t.sp.val = s.sp.val - 1 ∧
      t.pc = s.stack[s.sp.val - 1]'(by omega) ∧ (∀ j : Fin 16, t.stack[j.val] = s.stack[j.val]) ∧
      RegsKept [] s t ∧ Frame [.stack] s t) ∧
  (∀ s : State, s.sp.val = 0 → exec .ret s = .fault .stackUnderflow) ∧
  (∀ s : State, s.sp.val = 0 → NextInstr s .ret → transact .step s = (.failed .stackUnderflow, s))

/-- `1NNN` (R114): `pc` becomes `NNN`, unchecked, and nothing else changes; a jump to 0xFFF makes the next step fail its
fetch. -/
def Obligations.JpSetsPcToNnn : Prop :=
  ∀ (nnn : Address12) (s : State),
    decode (0x1#4 ++ nnn) = .ok (.jp nnn) ∧
    ∃ t, exec (.jp nnn) s = .next t ∧ t.pc.toNat = nnn.toNat ∧ RegsKept [] s t ∧ Frame [] s t ∧
      (nnn = 0xFFF → ∃ a, step t = .fault (.outOfBoundsMemoryAccess a))

/-- `2NNN`: pushes `npc` and jumps; every other stack entry is kept (R116; the cell pushed to is the spec's decision
D12, log 11). With 16 entries held it fails with `StackOverflow`, and the step changes nothing (`pc`: D2, log 5). -/
def Obligations.CallPushesNpcAndJumps : Prop :=
  (∀ (nnn : Address12) (s : State) (h : s.sp.val < 16), ∃ t, exec (.call nnn) s = .next t ∧
      t.sp.val = s.sp.val + 1 ∧ t.stack[s.sp.val] = s.pc + 2 ∧
      (∀ j : Fin 16, j.val ≠ s.sp.val → t.stack[j.val] = s.stack[j.val]) ∧
      t.pc.toNat = nnn.toNat ∧ RegsKept [] s t ∧ Frame [.stack] s t) ∧
  (∀ (nnn : Address12) (s : State), s.sp.val = 16 → exec (.call nnn) s = .fault .stackOverflow) ∧
  (∀ (nnn : Address12) (s : State), s.sp.val = 16 → NextInstr s (.call nnn) →
      transact .step s = (.failed .stackOverflow, s))

/-- `BNNN`: `pc` becomes `V[0] + NNN`, always V0 (R118), not reduced to 12 bits (the spec's decision D13, log 12). -/
def Obligations.JpV0AddsRegisterZero : Prop :=
  ∀ (nnn : Address12) (s : State), ∃ t, exec (.jpV0 nnn) s = .next t ∧
    t.pc.toNat = (s.reg 0).toNat + nnn.toNat ∧ RegsKept [] s t ∧ Frame [] s t

/-- `3XNN` and `4XNN` (R119, R120): skip on equal, skip on different; nothing but `pc` changes. -/
def Obligations.SkipsOnImmediate : Prop :=
  ∀ (x : Reg) (nn : Byte) (s : State),
    decode (0x3#4 ++ BitVec.ofFin (w := 4) x ++ nn) = .ok (.seImm x nn) ∧
    decode (0x4#4 ++ BitVec.ofFin (w := 4) x ++ nn) = .ok (.sneImm x nn) ∧
    (∃ t, exec (.seImm x nn) s = .next t ∧ t.pc = (if s.reg x = nn then s.pc + 2 + 2 else s.pc + 2) ∧
      RegsKept [] s t ∧ Frame [] s t) ∧
    (∃ t, exec (.sneImm x nn) s = .next t ∧ t.pc = (if s.reg x ≠ nn then s.pc + 2 + 2 else s.pc + 2) ∧
      RegsKept [] s t ∧ Frame [] s t)

/-- `5XY0` and `9XY0` (R121, R122): skip on equal, skip on different; nothing but `pc` changes. -/
def Obligations.SkipsOnRegister : Prop :=
  ∀ (x y : Reg) (s : State),
    (∃ t, exec (.seReg x y) s = .next t ∧ t.pc = (if s.reg x = s.reg y then s.pc + 2 + 2 else s.pc + 2) ∧
      RegsKept [] s t ∧ Frame [] s t) ∧
    (∃ t, exec (.sneReg x y) s = .next t ∧ t.pc = (if s.reg x ≠ s.reg y then s.pc + 2 + 2 else s.pc + 2) ∧
      RegsKept [] s t ∧ Frame [] s t)

/-! ### Loads, arithmetic, logic, shifts (41_alu.md) -/

/-- `6XNN`, `7XNN` and `8XY0` (R140, R141, R142), no flag set; and `6XNN` then `7XNN` leaves `(NN + NN) mod 256`. -/
def Obligations.LoadsAndImmediateAdd : Prop :=
  ∀ (x y : Reg) (nn : Byte) (s : State),
    decode (0x6#4 ++ BitVec.ofFin (w := 4) x ++ nn) = .ok (.ldImm x nn) ∧
    decode (0x7#4 ++ BitVec.ofFin (w := 4) x ++ nn) = .ok (.addImm x nn) ∧
    decode (0x8#4 ++ BitVec.ofFin (w := 4) x ++ BitVec.ofFin (w := 4) y ++ 0x0#4) = .ok (.ldReg x y) ∧
    (∃ t, exec (.ldImm x nn) s = .next t ∧ t.reg x = nn ∧ t.pc = s.pc + 2 ∧ RegsKept [x] s t ∧ Frame [] s t ∧
      ∃ u, exec (.addImm x nn) t = .next u ∧ (u.reg x).toNat = (nn.toNat + nn.toNat) % 256) ∧
    (∃ t, exec (.addImm x nn) s = .next t ∧ (t.reg x).toNat = ((s.reg x).toNat + nn.toNat) % 256 ∧
      t.pc = s.pc + 2 ∧ RegsKept [x] s t ∧ Frame [] s t) ∧
    (∃ t, exec (.ldReg x y) s = .next t ∧ t.reg x = s.reg y ∧ t.pc = s.pc + 2 ∧ RegsKept [x] s t ∧ Frame [] s t)

/-- `8XY1`, `8XY2`, `8XY3` (R143, R144, R145): bit by bit OR, AND, XOR into `V[X]`, no flag. -/
def Obligations.LogicIsBitwise : Prop :=
  ∀ (x y : Reg) (s : State),
    decode (0x8#4 ++ BitVec.ofFin (w := 4) x ++ BitVec.ofFin (w := 4) y ++ 0x1#4) = .ok (.orReg x y) ∧
    decode (0x8#4 ++ BitVec.ofFin (w := 4) x ++ BitVec.ofFin (w := 4) y ++ 0x2#4) = .ok (.andReg x y) ∧
    decode (0x8#4 ++ BitVec.ofFin (w := 4) x ++ BitVec.ofFin (w := 4) y ++ 0x3#4) = .ok (.xorReg x y) ∧
    (∃ t, exec (.orReg x y) s = .next t ∧
      (∀ j < 8, (t.reg x).getLsbD j = ((s.reg x).getLsbD j || (s.reg y).getLsbD j)) ∧
      t.pc = s.pc + 2 ∧ RegsKept [x] s t ∧ Frame [] s t) ∧
    (∃ t, exec (.andReg x y) s = .next t ∧
      (∀ j < 8, (t.reg x).getLsbD j = ((s.reg x).getLsbD j && (s.reg y).getLsbD j)) ∧
      t.pc = s.pc + 2 ∧ RegsKept [x] s t ∧ Frame [] s t) ∧
    (∃ t, exec (.xorReg x y) s = .next t ∧
      (∀ j < 8, (t.reg x).getLsbD j = ((s.reg x).getLsbD j ^^ (s.reg y).getLsbD j)) ∧
      t.pc = s.pc + 2 ∧ RegsKept [x] s t ∧ Frame [] s t)

/-- R151: the logic instructions do not write VF (unless it is their `X`), and the shifts shift `V[X]` in place and never
read `V[Y]`: neither the `Y` field nor the value of any register but `V[X]` matters to `V[X]` and VF. -/
def Obligations.LogicKeepsFlagAndShiftsIgnoreY : Prop :=
  (∀ (x y : Reg) (s t : State), x ≠ Reg.flag →
    (exec (.orReg x y) s = .next t ∨ exec (.andReg x y) s = .next t ∨ exec (.xorReg x y) s = .next t) →
    t.reg Reg.flag = s.reg Reg.flag) ∧
  (∀ (x y y' : Reg) (s : State), exec (.shr x y) s = exec (.shr x y') s ∧ exec (.shl x y) s = exec (.shl x y') s) ∧
  (∀ (x y : Reg) (s s' t t' : State), s.reg x = s'.reg x →
    (exec (.shr x y) s = .next t ∧ exec (.shr x y) s' = .next t' ∨
      exec (.shl x y) s = .next t ∧ exec (.shl x y) s' = .next t') →
    t.reg x = t'.reg x ∧ t.reg Reg.flag = t'.reg Reg.flag)

/-- `8XY4` (R146): the sum modulo 256 and the carry in VF; with `X = 15` VF ends as the carry (the spec's decision D7,
log 8). -/
def Obligations.AddRegGivesSumAndCarry : Prop :=
  ∀ (x y : Reg) (s : State), ∃ t, exec (.addReg x y) s = .next t ∧
    (x ≠ Reg.flag → (t.reg x).toNat = ((s.reg x).toNat + (s.reg y).toNat) % 256) ∧
    (t.reg Reg.flag).toNat = (if (s.reg x).toNat + (s.reg y).toNat > 255 then 1 else 0) ∧
    t.pc = s.pc + 2 ∧ RegsKept [x, Reg.flag] s t ∧ Frame [] s t

/-- `8XY5` (R147): `V[X] - V[Y]` modulo 256 and "not borrow" in VF; with `X = 15` VF ends as the flag (the spec's
decision D7, log 8). -/
def Obligations.SubRegGivesDifferenceAndNotBorrow : Prop :=
  ∀ (x y : Reg) (s : State), ∃ t, exec (.subReg x y) s = .next t ∧
    (x ≠ Reg.flag → (t.reg x).toNat =
      (if (s.reg x).toNat ≥ (s.reg y).toNat then (s.reg x).toNat - (s.reg y).toNat
       else (s.reg x).toNat + 256 - (s.reg y).toNat)) ∧
    (t.reg Reg.flag).toNat = (if (s.reg x).toNat ≥ (s.reg y).toNat then 1 else 0) ∧
    t.pc = s.pc + 2 ∧ RegsKept [x, Reg.flag] s t ∧ Frame [] s t

/-- `8XY7` (R149): `V[Y] - V[X]` modulo 256 and "not borrow" in VF (the comparison is derived in the spec, log 20); with
`X = 15` VF ends as the flag (the spec's decision D7, log 8). -/
def Obligations.SubnGivesReverseDifferenceAndNotBorrow : Prop :=
  ∀ (x y : Reg) (s : State), ∃ t, exec (.subn x y) s = .next t ∧
    (x ≠ Reg.flag → (t.reg x).toNat =
      (if (s.reg y).toNat ≥ (s.reg x).toNat then (s.reg y).toNat - (s.reg x).toNat
       else (s.reg y).toNat + 256 - (s.reg x).toNat)) ∧
    (t.reg Reg.flag).toNat = (if (s.reg y).toNat ≥ (s.reg x).toNat then 1 else 0) ∧
    t.pc = s.pc + 2 ∧ RegsKept [x, Reg.flag] s t ∧ Frame [] s t

/-- `8XY6` (R148): a logical shift right by one and the bit shifted out in VF; with `X = 15` VF ends as 0 (the spec's
decision D7, log 8). -/
def Obligations.ShrHalvesAndKeepsLowBit : Prop :=
  ∀ (x y : Reg) (s : State), ∃ t, exec (.shr x y) s = .next t ∧
    (x ≠ Reg.flag → (t.reg x).toNat = (s.reg x).toNat / 2 ∧ (t.reg Reg.flag).toNat = (s.reg x).toNat % 2) ∧
    (x = Reg.flag → (t.reg Reg.flag).toNat = 0) ∧
    t.pc = s.pc + 2 ∧ RegsKept [x, Reg.flag] s t ∧ Frame [] s t

/-- `8XYE` (R150): a shift left by one and the bit shifted out in VF; with `X = 15` VF ends as 2 or 0 (the spec's
decision D7, log 8). -/
def Obligations.ShlDoublesAndKeepsHighBit : Prop :=
  ∀ (x y : Reg) (s : State), ∃ t, exec (.shl x y) s = .next t ∧
    (x ≠ Reg.flag → (t.reg x).toNat = (s.reg x).toNat * 2 % 256 ∧ (t.reg Reg.flag).toNat = (s.reg x).toNat / 128) ∧
    (x = Reg.flag → (t.reg Reg.flag).toNat = (if (s.reg Reg.flag).toNat ≥ 128 then 2 else 0)) ∧
    t.pc = s.pc + 2 ∧ RegsKept [x, Reg.flag] s t ∧ Frame [] s t

/-- R22, for instructions whose destination is not VF (`X = 15` is D7, log 8, and has its clauses above): a flag writer
leaves the byte 0 or 1 in VF, and every other instruction leaves VF alone. -/
def Obligations.FlagIsZeroOrOneAndWrittenBySixOnly : Prop :=
  ∀ (i : Instr) (s t : State), exec i s = .next t → Reg.flag ∉ i.destination →
    (i.writesFlag = true → t.reg Reg.flag = 0 ∨ t.reg Reg.flag = 1) ∧
    (i.writesFlag = false → t.reg Reg.flag = s.reg Reg.flag)

/-! ### Index register and random (42_index_random.md) -/

/-- `ANNN` (R170): `I` becomes `NNN`. -/
def Obligations.LdISetsIndex : Prop :=
  ∀ (nnn : Address12) (s : State),
    decode (0xA#4 ++ nnn) = .ok (.ldI nnn) ∧
    ∃ t, exec (.ldI nnn) s = .next t ∧ t.i.toNat = nnn.toNat ∧ t.pc = s.pc + 2 ∧ RegsKept [] s t ∧ Frame [.index] s t

/-- `FX1E` (R171): `I` becomes `(I + V[X]) mod 65536` (the width is derived in the spec, log 20); no flag, no failure. -/
def Obligations.AddIWrapsAtSixteenBits : Prop :=
  ∀ (x : Reg) (s : State), ∃ t, exec (.addI x) s = .next t ∧
    t.i.toNat = (s.i.toNat + (s.reg x).toNat) % 65536 ∧ t.pc = s.pc + 2 ∧ RegsKept [] s t ∧ Frame [.index] s t

/-- `CXNN` (R173): `V[X]` becomes the drawn byte AND `NN`, whatever byte is drawn; a step takes the next byte of the
source and counts the draw (the counter is the model's, log 2). -/
def Obligations.RndMasksTheDrawnByte : Prop :=
  ∀ (x : Reg) (nn : Byte) (s : State),
    (∃ t, exec (.rnd x nn) s = .next t ∧ t.reg x = Config.randomByte s.draws &&& nn ∧ t.draws = s.draws + 1 ∧
      t.pc = s.pc + 2 ∧ RegsKept [x] s t ∧ Frame [.draws] s t) ∧
    (∀ r : Byte, ∃ t, execRndWith r x nn s = .next t ∧ t.reg x = r &&& nn ∧ t.pc = s.pc + 2 ∧
      RegsKept [x] s t ∧ Frame [] s t)

/-! ### Display (43_display.md) -/

/-- `00E0` (R180): every pixel unlit, VF not written; clearing a clear framebuffer changes nothing in it. -/
def Obligations.ClsClearsEveryPixel : Prop :=
  decode 0x00E0 = .ok .cls ∧
  ∀ s : State, ∃ t, exec .cls s = .next t ∧ (∀ x y, pix t.fb x y = false) ∧
    ((∀ x < 64, ∀ y < 32, pix s.fb x y = false) → t.fb = s.fb) ∧
    t.pc = s.pc + 2 ∧ RegsKept [] s t ∧ Frame [.screen] s t

/-- `DXYN` within memory (R181, R182): the pixels under a set bit of the sprite flip, wrapped onto the grid, every other
pixel stays; VF becomes 1 if a lit pixel was under a set bit, else 0; `I` and memory are unchanged. `N = 0` succeeds
for every `I` (the spec's decision D10, log 10). -/
def Obligations.DrwXorsTheSpriteOntoTheScreen : Prop :=
  ∀ (x y : Reg) (n : Nibble) (s : State), n.toNat = 0 ∨ s.i.toNat + n.toNat ≤ 4096 →
    ∃ t, exec (.drw x y n) s = .next t ∧
      (∀ cx < 64, ∀ cy < 32, (pix t.fb cx cy = true ↔
        ¬ (pix s.fb cx cy = true ↔
          SpriteCovers s.mem s.i.toNat n.toNat (s.reg x).toNat (s.reg y).toNat cx cy))) ∧
      (t.reg Reg.flag = 0 ∨ t.reg Reg.flag = 1) ∧
      (t.reg Reg.flag = 1 ↔ ∃ cx < 64, ∃ cy < 32, pix s.fb cx cy = true ∧
        SpriteCovers s.mem s.i.toNat n.toNat (s.reg x).toNat (s.reg y).toNat cx cy) ∧
      t.pc = s.pc + 2 ∧ RegsKept [Reg.flag] s t ∧ Frame [.screen] s t

/-- `DXYN` beyond memory (R181, R183): with a row address above 4095 it fails, whatever the pixels; the payload is the
lowest offending address (the spec's decisions D3 and D10, logs 6 and 10). -/
def Obligations.DrwBeyondMemoryFails : Prop :=
  ∀ (x y : Reg) (n : Nibble) (s : State), n.toNat ≥ 1 → s.i.toNat + n.toNat > 4096 →
    exec (.drw x y n) s = .fault (.outOfBoundsMemoryAccess (max s.i.toNat 4096))

/-- Drawing the same sprite twice at the same place restores the framebuffer (R182), and the second draw's VF is 1 exactly
when some pixel under a set bit was unlit at first (read off the algorithm of R181, log 23). -/
def Obligations.DrawingTwiceRestoresTheScreen : Prop :=
  ∀ (x y : Reg) (n : Nibble) (s t u : State),
    exec (.drw x y n) s = .next t → exec (.drw x y n) t = .next u →
    t.reg x = s.reg x → t.reg y = s.reg y →
    u.fb = s.fb ∧
    (u.reg Reg.flag = 1 ↔ ∃ cx < 64, ∃ cy < 32, pix s.fb cx cy = false ∧
      SpriteCovers s.mem s.i.toNat n.toNat (s.reg x).toNat (s.reg y).toNat cx cy)

/-! ### Keypad and timers (44_keypad_timers.md) -/

/-- `EX9E` and `EXA1` (R190, R191): skip by the level of key `V[X]`; a key number above 15 fails (the spec's decision D9,
log 9; the payload is D3, log 6). -/
def Obligations.KeySkipsFollowTheKeyLevel : Prop :=
  (∀ (x : Reg) (s : State), (s.reg x).toNat < 16 →
    (∃ t, exec (.skp x) s = .next t ∧
      t.pc = (if s.keyDown (s.reg x).toNat then s.pc + 2 + 2 else s.pc + 2) ∧ RegsKept [] s t ∧ Frame [] s t) ∧
    (∃ t, exec (.sknp x) s = .next t ∧
      t.pc = (if s.keyDown (s.reg x).toNat then s.pc + 2 else s.pc + 2 + 2) ∧ RegsKept [] s t ∧ Frame [] s t)) ∧
  (∀ (x : Reg) (s : State), (s.reg x).toNat ≥ 16 →
    exec (.skp x) s = .fault (.invalidKeyIndex (s.reg x).toNat) ∧
    exec (.sknp x) s = .fault (.invalidKeyIndex (s.reg x).toNat))

/-- `FX0A` (R193): the least pressed key into `V[X]`; with none pressed the step succeeds and the whole state is
unchanged. -/
def Obligations.WaitForKeyTakesTheLeastPressed : Prop :=
  (∀ x : Reg, decode (0xF#4 ++ BitVec.ofFin (w := 4) x ++ 0x0A#8) = .ok (.ldVxK x)) ∧
  (∀ (x : Reg) (s : State) (k : Nat), k < 16 → s.keyDown k = true → (∀ j < k, s.keyDown j = false) →
    ∃ t, exec (.ldVxK x) s = .next t ∧ (t.reg x).toNat = k ∧ t.pc = s.pc + 2 ∧ RegsKept [x] s t ∧ Frame [] s t) ∧
  (∀ (x : Reg) (s : State), (∀ k < 16, s.keyDown k = false) → exec (.ldVxK x) s = .next s)

/-- `FX07` and `FX15` (R194, R195): read and write the delay timer; after a write of 5, five ticks give 0 and a sixth
leaves 0. -/
def Obligations.DelayTimerMoves : Prop :=
  ∀ (x : Reg) (s : State),
    decode (0xF#4 ++ BitVec.ofFin (w := 4) x ++ 0x07#8) = .ok (.ldVxDt x) ∧
    decode (0xF#4 ++ BitVec.ofFin (w := 4) x ++ 0x15#8) = .ok (.ldDtVx x) ∧
    (∃ t, exec (.ldVxDt x) s = .next t ∧ t.reg x = s.dt ∧ t.pc = s.pc + 2 ∧ RegsKept [x] s t ∧ Frame [] s t) ∧
    (∃ t, exec (.ldDtVx x) s = .next t ∧ t.dt = s.reg x ∧ t.pc = s.pc + 2 ∧ RegsKept [] s t ∧ Frame [.delay] s t ∧
      (s.reg x = 5 → (transactAll (List.replicate 5 .tickTimers) t).dt = 0 ∧
        (transactAll (List.replicate 6 .tickTimers) t).dt = 0))

/-- `FX18` (R196): writes the sound timer, also with 0, with no tick edge (the response is that of a step, not of a tick);
and no instruction reads `ST`: with another `ST` every other instruction does the same and keeps it. -/
def Obligations.SoundTimerIsWrittenAndNeverRead : Prop :=
  (∀ (x : Reg) (s : State),
    decode (0xF#4 ++ BitVec.ofFin (w := 4) x ++ 0x18#8) = .ok (.ldStVx x) ∧
    (∃ t, exec (.ldStVx x) s = .next t ∧ t.st = s.reg x ∧ t.pc = s.pc + 2 ∧ RegsKept [] s t ∧ Frame [.sound] s t) ∧
    (NextInstr s (.ldStVx x) → (transact .step s).1 = .ok)) ∧
  (∀ (i : Instr) (s : State) (b : Byte), (∀ x, i ≠ .ldStVx x) →
    exec i { s with st := b } = mapNext (fun t => { t with st := b }) (exec i s)) ∧
  (∀ (x : Reg) (s : State) (b : Byte), exec (.ldStVx x) { s with st := b } = exec (.ldStVx x) s)

/-! ### The other transactions (45_host_operations.md) -/

/-- `tick_timers` (R205): each timer above 0 loses 1, independently, a timer at 0 stays, `sound_stop` is `ST = 1`, nothing
else changes, and it never fails. -/
def Obligations.TickDecrementsBothTimers : Prop :=
  ∀ s : State, ∃ t, transact .tickTimers s = (.ticked (decide (s.st.toNat = 1)), t) ∧
    t.dt.toNat = s.dt.toNat - 1 ∧ t.st.toNat = s.st.toNat - 1 ∧
    t.pc = s.pc ∧ RegsKept [] s t ∧ Frame [.delay, .sound] s t

/-- Any number of ticks takes each timer down by that number and stops at 0 (R31, R205). -/
def Obligations.TicksCountDownToZero : Prop :=
  ∀ (n : Nat) (s : State),
    (transactAll (List.replicate n .tickTimers) s).dt.toNat = s.dt.toNat - n ∧
    (transactAll (List.replicate n .tickTimers) s).st.toNat = s.st.toNat - n

/-- The sound port (R206): `st_value` is `ST`, and `sound_stop` is given exactly by a `tick_timers` that finds `ST = 1`,
which leaves `ST = 0`; no other transaction gives it (both forms of the port: the spec's decision D15, log 18). -/
def Obligations.SoundStopIsTheTickEdge : Prop :=
  (∀ s : State, stValue s = s.st) ∧
  ∀ (r : Transaction) (s : State), (transact r s).1 = .ticked true ↔
    r = .tickTimers ∧ s.st = 1 ∧ (transact r s).2.st = 0

/-- `set_key` (R207): below 16 the one key bit becomes `pressed` and nothing else changes; from 16 on it fails and
changes nothing (the 8-bit index is the spec's decision D18, log 15, the payload D3, log 6). -/
def Obligations.SetKeyStoresOneLevel : Prop :=
  (∀ (index : Byte) (pressed : Bool) (s : State), index.toNat < 16 →
    ∃ t, transact (.setKey index pressed) s = (.ok, t) ∧
      (∀ k < 16, t.keyDown k = if k = index.toNat then pressed else s.keyDown k) ∧
      t.pc = s.pc ∧ RegsKept [] s t ∧ Frame [.keys] s t) ∧
  (∀ (index : Byte) (pressed : Bool) (s : State), index.toNat ≥ 16 →
    transact (.setKey index pressed) s = (.failed (.invalidKeyIndex index.toNat), s))

/-- `load` (R202, R203): up to 3584 bytes lie at 0x200 and on, every other byte and all other state is unchanged; a longer
image fails and changes nothing (the payload is the spec's decision D3, log 6). The canonical form of memory is a
premise; `StepKeepsInv` and `EveryTransactionKeepsInv` say it always holds. -/
def Obligations.LoadWritesTheImage : Prop :=
  (∀ (rom : List Byte) (s : State), Memory.wf s.mem = true → rom.length ≤ 3584 →
    ∃ t, transact (.load rom) s = (.ok, t) ∧
      (∀ k (h : k < rom.length), Memory.read t.mem (0x200 + k) = rom[k]) ∧
      (∀ a, a < 0x200 ∨ 0x200 + rom.length ≤ a → Memory.read t.mem a = Memory.read s.mem a) ∧
      t.pc = s.pc ∧ RegsKept [] s t ∧ Frame [.memory] s t) ∧
  (∀ (rom : List Byte) (s : State), rom.length > 3584 →
    transact (.load rom) s = (.failed (.romTooLarge rom.length), s))

/-- A loaded word is what the very next fetch at its address gives (R63). That this holds at an odd address too, there
being no alignment rule, is the spec's inference (R54, D22; log 21, DEDUCED). -/
def Obligations.LoadIsSeenByTheNextFetch : Prop :=
  ∀ (rom : List Byte) (s : State) (k : Nat) (h : k + 1 < rom.length), Memory.wf s.mem = true → rom.length ≤ 3584 →
    s.pc.toNat = 0x200 + k →
    ∃ op, fetch (transact (.load rom) s).2 = .ok op ∧ op.toNat = rom[k].toNat * 256 + rom[k + 1].toNat

/-- `display` (R208): the 2048 pixels, the one of column `x` and row `y` being number `x + 64*y`; it changes nothing and
never fails. -/
def Obligations.DisplayShowsThePixels : Prop :=
  ∀ s : State, transact .display s = (.displayed s.fb, s) ∧
    ∀ x < 64, ∀ y < 32, displayBit s (x + 64 * y) = pix s.fb x y

/-- The reset state is the table of R34, and the `reset` transaction gives it from every state, whatever the state was
(R201), leaving the random source alone (the spec's decisions D4, D5 and D11, logs 2, 3 and 4). -/
def Obligations.ResetGivesTheResetState : Prop :=
  IsResetState State.reset ∧
  ∀ s : State, (transact .reset s).1 = .ok ∧ IsResetState (transact .reset s).2 ∧ (transact .reset s).2.draws = s.draws

/-! ### The step and its failures (20_memory.md, 40_flow.md, 60_exceptions.md) -/

/-- When the bytes at `pc` decode to an instruction, the step is its `exec`; nothing is added around it (R110). -/
def Obligations.StepRunsTheDecodedInstruction : Prop :=
  ∀ (s : State) (i : Instr) (rest : List Byte), s.pc.toNat ≤ 4094 → i.wellFormed = true →
    decodeBytes [Memory.read s.mem s.pc.toNat, Memory.read s.mem (s.pc.toNat + 1)] = .ok (i, rest) →
    step s = exec i s

/-- Fetch (R51, R52, R53): big-endian at every address up to 4094; that odd ones work too is the spec's inference (R54,
D22; log 21, DEDUCED). Beyond, it fails, with the lowest offending address (the spec's decision D3, log 6), and so
does the step. -/
def Obligations.FetchIsBigEndianAndBounded : Prop :=
  (∀ s : State, s.pc.toNat ≤ 4094 → ∃ op, fetch s = .ok op ∧
    op.toNat = (Memory.read s.mem s.pc.toNat).toNat * 256 + (Memory.read s.mem (s.pc.toNat + 1)).toNat) ∧
  (∀ s : State, s.pc.toNat ≥ 4095 →
    step s = .fault (.outOfBoundsMemoryAccess (if s.pc.toNat = 4095 then 4096 else s.pc.toNat)))

/-- A failed transaction changes nothing, and issued again it fails the same way (R228, R230; for `pc` the spec's decision
D2, log 5). -/
def Obligations.FailureChangesNothing : Prop :=
  ∀ (r : Transaction) (s : State) (f : Fault), (transact r s).1 = .failed f →
    (transact r s).2 = s ∧ transact r (transact r s).2 = (.failed f, s)

/-- Which transaction and which instruction can return which failure (R227): each kind listed is returned in some state,
and no other is. The payloads `rom.length` and `index` are the spec's decision D3 (log 6); that the key skips fail on a
key number above 15 is D9 (log 9). -/
def Obligations.FailureKindsOfEachTransaction : Prop :=
  (∀ (s : State) (f : Fault), step s = .fault f → ∀ n, f ≠ .romTooLarge n) ∧
  (∀ (rom : List Byte) (s : State) (f : Fault), (transact (.load rom) s).1 = .failed f → f = .romTooLarge rom.length) ∧
  (∀ (index : Byte) (p : Bool) (s : State) (f : Fault), (transact (.setKey index p) s).1 = .failed f →
    f = .invalidKeyIndex index.toNat) ∧
  (∀ (s : State) (f : Fault), (transact .tickTimers s).1 ≠ .failed f ∧ (transact .display s).1 ≠ .failed f ∧
    (transact .reset s).1 ≠ .failed f) ∧
  (∀ (i : Instr) (s : State) (f : Fault), exec i s = .fault f →
    (i = .ret ∧ f = .stackUnderflow) ∨ ((∃ nnn, i = .call nnn) ∧ f = .stackOverflow) ∨
    ((∃ x y n, i = .drw x y n) ∧ ∃ a, f = .outOfBoundsMemoryAccess a) ∨
    ((∃ x, i = .skp x ∨ i = .sknp x) ∧ ∃ k, f = .invalidKeyIndex k)) ∧
  (∀ (i : Instr) (s : State) (r : Refusal), exec i s ≠ .refused r) ∧
  (∃ s, exec .ret s = .fault .stackUnderflow) ∧ (∀ nnn, ∃ s, exec (.call nnn) s = .fault .stackOverflow) ∧
  (∃ x y n s a, exec (.drw x y n) s = .fault (.outOfBoundsMemoryAccess a)) ∧
  (∀ x, ∃ s k, exec (.skp x) s = .fault (.invalidKeyIndex k)) ∧
  (∀ x, ∃ s k, exec (.sknp x) s = .fault (.invalidKeyIndex k)) ∧
  (∃ s op, step s = .fault (.invalidOpcode op)) ∧
  (∃ rom s f, (transact (.load rom) s).1 = .failed f) ∧ (∃ index p s f, (transact (.setKey index p) s).1 = .failed f)

/-- `StackOverflow` (R221): raised by `2NNN` with `SP = 16` and nothing else; `SP` is then still 16, not wrapped, and any
17 calls in a row fail at the 17th at the latest: from an empty stack the first 16 succeed. -/
def Obligations.StackOverflowOnlyByCallWhenFull : Prop :=
  (∀ (i : Instr) (s : State), exec i s = .fault .stackOverflow ↔ (∃ nnn, i = .call nnn) ∧ s.sp.val = 16) ∧
  (∀ s : State, step s = .fault .stackOverflow → (transact .step s).2.sp.val = 16) ∧
  (∀ (n : Nat) (s : State), s.sp.val = 0 →
    (∀ k < n, ∀ t, runSteps k s = .next t → ∃ nnn, NextInstr t (.call nnn)) →
    (n ≤ 16 → ∃ t, runSteps n s = .next t ∧ t.sp.val = n) ∧ (n = 17 → runSteps n s = .fault .stackOverflow))

/-- `StackUnderflow` (R222): raised by `00EE` with `SP = 0` and nothing else. -/
def Obligations.StackUnderflowOnlyByRetWhenEmpty : Prop :=
  ∀ (i : Instr) (s : State), exec i s = .fault .stackUnderflow ↔ i = .ret ∧ s.sp.val = 0

/-- `OutOfBoundsMemoryAccess(a)` (R224): the two causes, fetch and sprite read, and the payload of each (the spec's
decision D3, log 6); an out-of-range `pc` or `I` is no failure by itself. -/
def Obligations.OutOfBoundsHasTwoCauses : Prop :=
  ∀ (s : State) (a : Nat), step s = .fault (.outOfBoundsMemoryAccess a) ↔
    (s.pc.toNat ≥ 4095 ∧ a = max s.pc.toNat 4096) ∨
    (∃ x y n, NextInstr s (.drw x y n) ∧ n.toNat ≥ 1 ∧ s.i.toNat + n.toNat > 4096 ∧ a = max s.i.toNat 4096)

/-! ### The whole machine -/

/-- The "w" entries of the table of R36: an instruction writes no register and no piece of state but those listed for it. -/
def Obligations.InstructionsWriteOnlyWhatIsListed : Prop :=
  ∀ (i : Instr) (s t : State), exec i s = .next t →
    RegsKept i.registersWritten s t ∧ Frame i.partsWritten s t

/-- R31: the timers are 8 bits wide, decremented by `tick_timers` only, stopping at 0; a step changes `DT` only through
`FX15` and `ST` only through `FX18`; `set_key`, `load` and `display` change neither. -/
def Obligations.TimersMoveByTicksAndTheirWritersOnly : Prop :=
  (∀ s t : State, step s = .next t →
    (t.dt = s.dt ∨ ∃ x, NextInstr s (.ldDtVx x) ∧ t.dt = s.reg x) ∧
    (t.st = s.st ∨ ∃ x, NextInstr s (.ldStVx x) ∧ t.st = s.reg x)) ∧
  (∀ s : State, (transact .tickTimers s).2.dt.toNat = s.dt.toNat - 1 ∧
    (transact .tickTimers s).2.st.toNat = s.st.toNat - 1) ∧
  (∀ (r : Transaction) (s : State), r ≠ .step → r ≠ .tickTimers → r ≠ .reset →
    (transact r s).2.dt = s.dt ∧ (transact r s).2.st = s.st)

/-- No instruction writes memory or a key bit: memory is written by `load` and `reset` only, the keys by `set_key` and
`reset` only (R7, R25, R29, R55). -/
def Obligations.MemoryAndKeysAreWrittenByTheHostOnly : Prop :=
  ∀ (r : Transaction) (s : State), r ≠ .reset →
    ((∀ rom, r ≠ .load rom) → ∀ a, Memory.read (transact r s).2.mem a = Memory.read s.mem a) ∧
    ((∀ index p, r ≠ .setKey index p) → ∀ k, (transact r s).2.keyDown k = s.keyDown k)

/-- Only `EX9E`, `EXA1` and `FX0A` read the keys (R29, R36): with other keys every other instruction does the same. -/
def Obligations.KeysAreReadByThreeInstructionsOnly : Prop :=
  ∀ (i : Instr) (s : State) (keys : BitVec 16), i.readsKeys = false →
    exec i { s with keys := keys } = mapNext (fun t => { t with keys := keys }) (exec i s)

/-- The facts of R35, with the canonical form of memory, are kept by every step, in every state that has them. -/
def Obligations.StepKeepsInv : Prop :=
  ∀ s t : State, MachineInv s → step s = .next t → MachineInv t

/-- The facts of R35 hold after reset. -/
def Obligations.ResetMeetsInv : Prop := MachineInv State.reset

/-- Every transaction, with whatever arguments and whether it fails or not, keeps the facts of R35. -/
def Obligations.EveryTransactionKeepsInv : Prop :=
  ∀ (r : Transaction) (s : State), MachineInv s → MachineInv (transact r s).2

/-- The facts of R35 hold in every reachable state: `pc` is at most 0x10FE, every live stack entry at most 4096, the font
and the fill below 0x200 are intact. -/
def Obligations.ReachableStatesMeetInv : Prop :=
  ∀ s : State, Reachable s → MachineInv s

/-- A run that has ended normally stays there: every further step succeeds and changes nothing, and a tick or a key does
not end the end (R115, R213; the self-jump as the end is the spec's decision D16, log 17). -/
def Obligations.SelfJumpIsTheEndOfTheRun : Prop :=
  ∀ s : State, EndedNormally s →
    (∀ n, runSteps n s = .next s) ∧ EndedNormally (transact .tickTimers s).2 ∧
    ∀ index p, EndedNormally (transact (.setKey index p) s).2

/-- Running off the code (R264, R270): where memory is zero from `pc` on, each step is a no-op until `pc` passes the last
address a word can be fetched from, and there the step fails. That unloaded memory is zero is the spec's decision D4
(log 4); here it is a premise. The payload is D3 (log 6). -/
def Obligations.ZeroMemoryRunsOffTheEnd : Prop :=
  ∀ (s : State) (k : Nat), (∀ a, s.pc.toNat ≤ a → Memory.read s.mem a = 0) → s.pc.toNat + 2 * k ≤ 4096 →
    runSteps k s = .next { s with pc := s.pc + BitVec.ofNat 16 (2 * k) } ∧
    (s.pc.toNat + 2 * k = 4096 → runSteps (k + 1) s = .fault (.outOfBoundsMemoryAccess 4096))

/-- The delay timer runs out (R212): under `TICK_FAIR`, from every state, in a schedule in which no step executes `FX15`
the delay timer reaches 0, however the other transactions come. -/
def Obligations.FairTicksEndADelay : Prop :=
  ∀ (sched : Nat → Transaction) (s : State), TickFair sched →
    (∀ n x, sched n = .step → ¬ NextInstr (runSchedule sched s n) (.ldDtVx x)) →
    ∃ n, (runSchedule sched s n).dt = 0

/-- A wait for a key ends (R193, E8): in a state whose next instruction is `FX0A`, after `set_key(k, true)` the next step
succeeds, advances, and puts a pressed key's number, at most `k`, into `V[X]`. -/
def Obligations.ReportedKeyEndsAWait : Prop :=
  ∀ (s : State) (x : Reg) (k : Byte), NextInstr s (.ldVxK x) → k.toNat < 16 →
    ∃ t, transact .step (transact (.setKey k true) s).2 = (.ok, t) ∧ t.pc = s.pc + 2 ∧
      (t.reg x).toNat ≤ k.toNat ∧ t.keyDown (t.reg x).toNat = true ∧
      ∀ j < (t.reg x).toNat, t.keyDown j = false
end

