-- ==== Sys2Proof/Laws/Decode.lean ====
section
/-! SUPPORT. The small lemmas of decoding and encoding: what a field of an encoded word is, how a word is put together from
its fields, and what the decoder does under each top nibble (30_encoding.md R81 to R84). -/

namespace Sys2Proof

/-! ### The fields of an encoded word -/

@[simp] theorem Reg.toFin_bits (x : Reg) : x.bits.toFin = x := rfl

@[simp] theorem fieldTop_formatNNN (top : Nibble) (nnn : Address12) : fieldTop (formatNNN top nnn) = top := by
  refine BitVec.eq_of_getLsbD_eq fun j hj => ?_
  simp only [fieldTop, formatNNN, BitVec.getLsbD_extractLsb', BitVec.getLsbD_append]
  interval_cases j <;> simp

@[simp] theorem fieldTop_formatXNN (top : Nibble) (x : Reg) (nn : Byte) : fieldTop (formatXNN top x nn) = top := by
  refine BitVec.eq_of_getLsbD_eq fun j hj => ?_
  simp only [fieldTop, formatXNN, BitVec.getLsbD_extractLsb', BitVec.getLsbD_append]
  interval_cases j <;> simp

@[simp] theorem fieldTop_formatXYN (top : Nibble) (x y : Reg) (n : Nibble) : fieldTop (formatXYN top x y n) = top := by
  refine BitVec.eq_of_getLsbD_eq fun j hj => ?_
  simp only [fieldTop, formatXYN, BitVec.getLsbD_extractLsb', BitVec.getLsbD_append]
  interval_cases j <;> simp

@[simp] theorem fieldNNN_formatNNN (top : Nibble) (nnn : Address12) : fieldNNN (formatNNN top nnn) = nnn := by
  refine BitVec.eq_of_getLsbD_eq fun j hj => ?_
  simp only [fieldNNN, formatNNN, BitVec.getLsbD_extractLsb', BitVec.getLsbD_append]
  interval_cases j <;> simp

@[simp] theorem fieldNN_formatXNN (top : Nibble) (x : Reg) (nn : Byte) : fieldNN (formatXNN top x nn) = nn := by
  refine BitVec.eq_of_getLsbD_eq fun j hj => ?_
  simp only [fieldNN, formatXNN, BitVec.getLsbD_extractLsb', BitVec.getLsbD_append]
  interval_cases j <;> simp

@[simp] theorem fieldN_formatXYN (top : Nibble) (x y : Reg) (n : Nibble) : fieldN (formatXYN top x y n) = n := by
  refine BitVec.eq_of_getLsbD_eq fun j hj => ?_
  simp only [fieldN, formatXYN, BitVec.getLsbD_extractLsb', BitVec.getLsbD_append]
  interval_cases j <;> simp

@[simp] theorem fieldX_formatXNN (top : Nibble) (x : Reg) (nn : Byte) : fieldX (formatXNN top x nn) = x := by
  have h : BitVec.extractLsb' 8 4 (formatXNN top x nn) = x.bits := by
    refine BitVec.eq_of_getLsbD_eq fun j hj => ?_
    simp only [formatXNN, BitVec.getLsbD_extractLsb', BitVec.getLsbD_append]
    interval_cases j <;> simp
  rw [fieldX, h, Reg.toFin_bits]

@[simp] theorem fieldX_formatXYN (top : Nibble) (x y : Reg) (n : Nibble) : fieldX (formatXYN top x y n) = x := by
  have h : BitVec.extractLsb' 8 4 (formatXYN top x y n) = x.bits := by
    refine BitVec.eq_of_getLsbD_eq fun j hj => ?_
    simp only [formatXYN, BitVec.getLsbD_extractLsb', BitVec.getLsbD_append]
    interval_cases j <;> simp
  rw [fieldX, h, Reg.toFin_bits]

@[simp] theorem fieldY_formatXYN (top : Nibble) (x y : Reg) (n : Nibble) : fieldY (formatXYN top x y n) = y := by
  have h : BitVec.extractLsb' 4 4 (formatXYN top x y n) = y.bits := by
    refine BitVec.eq_of_getLsbD_eq fun j hj => ?_
    simp only [formatXYN, BitVec.getLsbD_extractLsb', BitVec.getLsbD_append]
    interval_cases j <;> simp
  rw [fieldY, h, Reg.toFin_bits]

/-! ### A word from its fields -/

theorem formatNNN_fields (op : Word) : formatNNN (fieldTop op) (fieldNNN op) = op := by
  refine BitVec.eq_of_getLsbD_eq fun j hj => ?_
  simp only [fieldTop, fieldNNN, formatNNN, BitVec.getLsbD_extractLsb', BitVec.getLsbD_append]
  interval_cases j <;> simp

theorem formatXNN_fields (op : Word) : formatXNN (fieldTop op) (fieldX op) (fieldNN op) = op := by
  refine BitVec.eq_of_getLsbD_eq fun j hj => ?_
  simp only [fieldTop, fieldX, fieldNN, formatXNN, Reg.bits, BitVec.ofFin_toFin, BitVec.getLsbD_extractLsb',
    BitVec.getLsbD_append]
  interval_cases j <;> simp

theorem formatXYN_fields (op : Word) : formatXYN (fieldTop op) (fieldX op) (fieldY op) (fieldN op) = op := by
  refine BitVec.eq_of_getLsbD_eq fun j hj => ?_
  simp only [fieldTop, fieldX, fieldY, fieldN, formatXYN, Reg.bits, BitVec.ofFin_toFin, BitVec.getLsbD_extractLsb',
    BitVec.getLsbD_append]
  interval_cases j <;> simp

theorem fieldTop_toNat (op : Word) : (fieldTop op).toNat = op.toNat / 4096 := by
  have := op.isLt
  simp only [fieldTop, BitVec.extractLsb'_toNat, Nat.shiftRight_eq_div_pow]
  omega

theorem fieldN_toNat (op : Word) : (fieldN op).toNat = op.toNat % 16 := by
  simp [fieldN, BitVec.extractLsb'_toNat]

theorem fieldNN_toNat (op : Word) : (fieldNN op).toNat = op.toNat % 256 := by
  simp [fieldNN, BitVec.extractLsb'_toNat]

/-! ### The decoder under each top nibble -/

/-- The sixteen top nibbles. -/
theorem Nibble.cases (t : Nibble) :
    t = 0x0#4 ∨ t = 0x1#4 ∨ t = 0x2#4 ∨ t = 0x3#4 ∨ t = 0x4#4 ∨ t = 0x5#4 ∨ t = 0x6#4 ∨ t = 0x7#4 ∨
    t = 0x8#4 ∨ t = 0x9#4 ∨ t = 0xA#4 ∨ t = 0xB#4 ∨ t = 0xC#4 ∨ t = 0xD#4 ∨ t = 0xE#4 ∨ t = 0xF#4 := by
  have := t.isLt
  simp only [← BitVec.toNat_inj, BitVec.toNat_ofNat]
  omega

theorem decode_top0 (op : Word) (h : fieldTop op = 0x0#4) :
    decode op = decodeFamily0 op := by
  simp [decode, h]

theorem decode_top1 (op : Word) (h : fieldTop op = 0x1#4) :
    decode op = .ok (.jp (fieldNNN op)) := by
  simp [decode, h]

theorem decode_top2 (op : Word) (h : fieldTop op = 0x2#4) :
    decode op = .ok (.call (fieldNNN op)) := by
  simp [decode, h]

theorem decode_top3 (op : Word) (h : fieldTop op = 0x3#4) :
    decode op = .ok (.seImm (fieldX op) (fieldNN op)) := by
  simp [decode, h]

theorem decode_top4 (op : Word) (h : fieldTop op = 0x4#4) :
    decode op = .ok (.sneImm (fieldX op) (fieldNN op)) := by
  simp [decode, h]

theorem decode_top5 (op : Word) (h : fieldTop op = 0x5#4) :
    decode op = if fieldN op = 0x0#4 then .ok (.seReg (fieldX op) (fieldY op)) else .error (.illegal op) := by
  simp [decode, h]

theorem decode_top6 (op : Word) (h : fieldTop op = 0x6#4) :
    decode op = .ok (.ldImm (fieldX op) (fieldNN op)) := by
  simp [decode, h]

theorem decode_top7 (op : Word) (h : fieldTop op = 0x7#4) :
    decode op = .ok (.addImm (fieldX op) (fieldNN op)) := by
  simp [decode, h]

theorem decode_top8 (op : Word) (h : fieldTop op = 0x8#4) :
    decode op = decodeFamily8 op := by
  simp [decode, h]

theorem decode_top9 (op : Word) (h : fieldTop op = 0x9#4) :
    decode op = if fieldN op = 0x0#4 then .ok (.sneReg (fieldX op) (fieldY op)) else .error (.illegal op) := by
  simp [decode, h]

theorem decode_topA (op : Word) (h : fieldTop op = 0xA#4) :
    decode op = .ok (.ldI (fieldNNN op)) := by
  simp [decode, h]

theorem decode_topB (op : Word) (h : fieldTop op = 0xB#4) :
    decode op = .ok (.jpV0 (fieldNNN op)) := by
  simp [decode, h]

theorem decode_topC (op : Word) (h : fieldTop op = 0xC#4) :
    decode op = .ok (.rnd (fieldX op) (fieldNN op)) := by
  simp [decode, h]

theorem decode_topD (op : Word) (h : fieldTop op = 0xD#4) :
    decode op = .ok (.drw (fieldX op) (fieldY op) (fieldN op)) := by
  simp [decode, h]

theorem decode_topE (op : Word) (h : fieldTop op = 0xE#4) :
    decode op = decodeFamilyE op := by
  simp [decode, h]

theorem decode_topF (op : Word) (h : fieldTop op = 0xF#4) :
    decode op = decodeFamilyF op := by
  simp [decode, h]

end Sys2Proof
end

