-- ==== Sys2Proof/Laws/Memory.lean ====
section
/-! SUPPORT. Memory: a read after a write, the canonical form under every operation, and equal contents are equal lists. -/

namespace Sys2Proof.Machine

theorem Memory.read_consCell (m : Memory) (a a' : Nat) (b : Byte)
    (h : Memory.read m a = memReset a ∨ b ≠ memReset a) :
    Memory.read (Memory.consCell a b m) a' = if a' = a then b else Memory.read m a' := by
  unfold Memory.consCell
  split
  · rename_i hb
    split
    · rename_i ha; subst ha
      rcases h with h | h
      · rw [h, hb]
      · exact absurd hb h
    · rfl
  · simp [Memory.read, eq_comm]

/-- An address below every listed one reads as reset left it. -/
theorem Memory.read_of_lt : ∀ (m : Memory) (lo a : Nat), Memory.wfFrom lo m = true → a < lo →
    Memory.read m a = memReset a
  | [], _, _, _, _ => rfl
  | c :: m, lo, a, h, ha => by
    simp only [Memory.wfFrom, Bool.and_eq_true, decide_eq_true_eq] at h
    obtain ⟨⟨⟨h1, -⟩, -⟩, h4⟩ := h
    rw [Memory.read, if_neg (by omega)]
    exact Memory.read_of_lt m (c.1 + 1) a h4 (by omega)

theorem Memory.wfFrom_mono : ∀ (m : Memory) (lo lo' : Nat), Memory.wfFrom lo m = true → lo' ≤ lo →
    Memory.wfFrom lo' m = true
  | [], _, _, _, _ => rfl
  | c :: m, lo, lo', h, hle => by
    simp only [Memory.wfFrom, Bool.and_eq_true, decide_eq_true_eq] at h ⊢
    exact ⟨⟨⟨by omega, h.1.1.2⟩, h.1.2⟩, h.2⟩

theorem Memory.wfFrom_consCell (m : Memory) (lo a : Nat) (b : Byte) (hlo : lo ≤ a) (ha : a < 4096)
    (h : Memory.wfFrom (a + 1) m = true) : Memory.wfFrom lo (Memory.consCell a b m) = true := by
  unfold Memory.consCell
  split
  · exact Memory.wfFrom_mono m _ _ h (by omega)
  · rename_i hb
    simp [Memory.wfFrom, hlo, ha, hb, h]

/-- A write at an address of the space keeps the canonical form. -/
theorem Memory.wfFrom_write : ∀ (m : Memory) (lo a : Nat) (b : Byte), Memory.wfFrom lo m = true → lo ≤ a → a < 4096 →
    Memory.wfFrom lo (Memory.write m a b) = true
  | [], lo, a, b, _, hlo, ha => Memory.wfFrom_consCell [] lo a b hlo ha rfl
  | c :: m, lo, a, b, h, hlo, ha => by
    have h0 := h
    simp only [Memory.wfFrom, Bool.and_eq_true, decide_eq_true_eq] at h
    obtain ⟨⟨⟨h1, h2⟩, h3⟩, h4⟩ := h
    unfold Memory.write
    split
    · refine Memory.wfFrom_consCell _ lo a b hlo ha ?_
      simp only [Memory.wfFrom, Bool.and_eq_true, decide_eq_true_eq]
      exact ⟨⟨⟨by omega, h2⟩, h3⟩, h4⟩
    · split
      · rename_i hac
        exact Memory.wfFrom_consCell _ lo a b hlo ha (hac ▸ h4)
      · simp only [Memory.wfFrom, Bool.and_eq_true, decide_eq_true_eq]
        exact ⟨⟨⟨h1, h2⟩, h3⟩, Memory.wfFrom_write m (c.1 + 1) a b h4 (by omega) ha⟩

theorem Memory.read_writeFrom : ∀ (m : Memory) (lo a a' : Nat) (b : Byte), Memory.wfFrom lo m = true →
    Memory.read (Memory.write m a b) a' = if a' = a then b else Memory.read m a'
  | [], _, a, a', b, _ => Memory.read_consCell [] a a' b (Or.inl rfl)
  | c :: m, lo, a, a', b, h => by
    have h0 := h
    simp only [Memory.wfFrom, Bool.and_eq_true, decide_eq_true_eq] at h
    obtain ⟨⟨⟨h1, h2⟩, h3⟩, h4⟩ := h
    unfold Memory.write
    split
    · rename_i hlt
      refine Memory.read_consCell _ a a' b (Or.inl ?_)
      rw [Memory.read, if_neg (by omega)]
      exact Memory.read_of_lt m (c.1 + 1) a h4 (by omega)
    · split
      · rename_i hac
        rw [Memory.read_consCell m a a' b (Or.inl (Memory.read_of_lt m (c.1 + 1) a h4 (by omega))), Memory.read]
        split
        · rfl
        · rw [if_neg (by omega)]
      · rename_i hac
        rw [Memory.read, Memory.read_writeFrom m (c.1 + 1) a a' b h4, Memory.read]
        by_cases hc : c.1 = a'
        · rw [if_pos hc, if_pos hc, if_neg (by omega)]
        · rw [if_neg hc, if_neg hc]

/-- Reading after writing: the written byte there, every other byte as it was. -/
theorem Memory.read_write (m : Memory) (a a' : Nat) (b : Byte) (h : Memory.wf m = true) :
    Memory.read (Memory.write m a b) a' = if a' = a then b else Memory.read m a' :=
  Memory.read_writeFrom m 0 a a' b h

theorem Memory.wf_write (m : Memory) (a : Nat) (b : Byte) (h : Memory.wf m = true) (ha : a < 4096) :
    Memory.wf (Memory.write m a b) = true :=
  Memory.wfFrom_write m 0 a b h (Nat.zero_le a) ha

theorem Memory.wf_writeBytes : ∀ (m : Memory) (a : Nat) (bs : List Byte), Memory.wf m = true → a + bs.length ≤ 4096 →
    Memory.wf (Memory.writeBytes m a bs) = true
  | _, _, [], h, _ => h
  | m, a, b :: bs, h, hl => by
    rw [List.length_cons] at hl
    exact Memory.wf_write _ a b (Memory.wf_writeBytes m (a + 1) bs h (by omega)) (by omega)

/-- Everything `writeBytes` does: the bytes lie at `a` and on, every other byte is as it was. -/
theorem Memory.read_writeBytes : ∀ (m : Memory) (a : Nat) (bs : List Byte) (a' : Nat), Memory.wf m = true →
    a + bs.length ≤ 4096 →
    Memory.read (Memory.writeBytes m a bs) a' =
      if a ≤ a' ∧ a' < a + bs.length then bs.getD (a' - a) 0 else Memory.read m a'
  | m, a, [], a', _, _ => by
    rw [if_neg (by simp only [List.length_nil]; omega)]; rfl
  | m, a, b :: bs, a', h, hl => by
    rw [List.length_cons] at hl
    have hw := Memory.wf_writeBytes m (a + 1) bs h (by omega)
    rw [Memory.writeBytes, Memory.read_write _ a a' b hw, Memory.read_writeBytes m (a + 1) bs a' h (by omega)]
    by_cases h1 : a' = a
    · subst h1; simp
    · rw [if_neg h1]
      by_cases h2 : a + 1 ≤ a' ∧ a' < a + 1 + bs.length
      · rw [if_pos h2, if_pos (by rw [List.length_cons]; omega)]
        have h3 : a' - a = (a' - (a + 1)) + 1 := by omega
        rw [h3, List.getD_cons_succ]
      · rw [if_neg h2, if_neg (by rw [List.length_cons]; omega)]

theorem Memory.wf_placeWord (m : Memory) (a : Nat) (op : Word) (h : Memory.wf m = true) (ha : a + 1 ≤ 4095) :
    Memory.wf (placeWord m a op) = true :=
  Memory.wf_writeBytes m a _ h (by simp only [List.length_cons, List.length_nil]; omega)

/-- Equal contents are equal lists, from any bound on. -/
theorem Memory.ext_from : ∀ (m m' : Memory) (lo : Nat), Memory.wfFrom lo m = true → Memory.wfFrom lo m' = true →
    (∀ a, Memory.read m a = Memory.read m' a) → m = m'
  | [], [], _, _, _, _ => rfl
  | [], c :: m', lo, _, h', hr => by
    have := hr c.1
    simp only [Memory.wfFrom, Bool.and_eq_true, decide_eq_true_eq] at h'
    simp only [Memory.read, if_pos] at this
    exact absurd this.symm h'.1.2
  | c :: m, [], lo, h, _, hr => by
    have := hr c.1
    simp only [Memory.wfFrom, Bool.and_eq_true, decide_eq_true_eq] at h
    simp only [Memory.read, if_pos] at this
    exact absurd this h.1.2
  | c :: m, c' :: m', lo, h, h', hr => by
    simp only [Memory.wfFrom, Bool.and_eq_true, decide_eq_true_eq] at h h'
    obtain ⟨⟨⟨h1, h2⟩, h3⟩, h4⟩ := h
    obtain ⟨⟨⟨h1', h2'⟩, h3'⟩, h4'⟩ := h'
    have hkey : c.1 = c'.1 := by
      rcases Nat.lt_trichotomy c.1 c'.1 with hlt | heq | hgt
      · have := hr c.1
        rw [Memory.read, if_pos rfl, Memory.read, if_neg (by omega), Memory.read_of_lt m' _ c.1 h4' (by omega)] at this
        exact absurd this h3
      · exact heq
      · have := hr c'.1
        rw [Memory.read, if_neg (by omega), Memory.read, if_pos rfl, Memory.read_of_lt m _ c'.1 h4 (by omega)] at this
        exact absurd this.symm h3'
    have hval : c.2 = c'.2 := by
      have := hr c.1
      rwa [Memory.read, if_pos rfl, Memory.read, if_pos hkey.symm] at this
    have htail : m = m' := by
      refine Memory.ext_from m m' (c.1 + 1) h4 (hkey ▸ h4') fun a => ?_
      by_cases ha : a < c.1 + 1
      · rw [Memory.read_of_lt m _ a h4 ha, Memory.read_of_lt m' _ a h4' (by omega)]
      · have := hr a
        rwa [Memory.read, if_neg (by omega), Memory.read, if_neg (by omega)] at this
    rw [htail, Prod.ext hkey hval]

/-- Two memories in canonical form that read alike are the same list. -/
theorem Memory.ext_read (m m' : Memory) (h : Memory.wf m = true) (h' : Memory.wf m' = true)
    (hr : ∀ a, Memory.read m a = Memory.read m' a) : m = m' :=
  Memory.ext_from m m' 0 h h' hr

@[simp] theorem State.reset_mem_wf : Memory.wf State.reset.mem = true := rfl

end Sys2Proof.Machine
end

