-- ==== Sys2Proof/Laws/Ops.lean ====
section
/-! SUPPORT. One lemma per shared operation that says everything it can do. -/

namespace Sys2Proof.Machine

/-! ### Bounds and fetch -/

theorem boundsFailure_eq_none_iff (a len : Nat) : boundsFailure a len = none ↔ len = 0 ∨ a + len ≤ 4096 := by
  unfold boundsFailure
  split <;> simp <;> omega

theorem boundsFailure_eq_some_iff (a len : Nat) (f : Fault) :
    boundsFailure a len = some f ↔
      1 ≤ len ∧ a + len > 4096 ∧ f = .outOfBoundsMemoryAccess (max a 4096) := by
  unfold boundsFailure
  split
  · rename_i h
    simp only [Option.some.injEq, eq_comm (a := f)]
    constructor
    · intro hf; exact ⟨h.1, by omega, hf⟩
    · intro hf; exact hf.2.2
  · rename_i h
    simp only [reduceCtorEq, false_iff]
    intro hf; omega

theorem fetch_eq_ok_iff (s : State) (op : Word) :
    fetch s = .ok op ↔ s.pc.toNat ≤ 4094 ∧
      op = joinBytes (Memory.read s.mem s.pc.toNat) (Memory.read s.mem (s.pc.toNat + 1)) := by
  unfold fetch
  cases h : boundsFailure s.pc.toNat 2 with
  | none =>
    rw [boundsFailure_eq_none_iff] at h
    simp only [Except.ok.injEq, eq_comm (a := op)]
    constructor
    · intro he; exact ⟨by omega, he⟩
    · intro he; exact he.2
  | some f =>
    rw [boundsFailure_eq_some_iff] at h
    simp only [reduceCtorEq, false_iff]
    intro he; omega

theorem fetch_eq_error_iff (s : State) (f : Fault) :
    fetch s = .error f ↔ s.pc.toNat ≥ 4095 ∧ f = .outOfBoundsMemoryAccess (max s.pc.toNat 4096) := by
  unfold fetch
  cases h : boundsFailure s.pc.toNat 2 with
  | none =>
    rw [boundsFailure_eq_none_iff] at h
    simp only [reduceCtorEq, false_iff]
    intro he; omega
  | some g =>
    rw [boundsFailure_eq_some_iff] at h
    simp only [Except.error.injEq, h.2.2, eq_comm (a := f)]
    constructor
    · intro he; exact ⟨by omega, he⟩
    · intro he; exact he.2

/-- The fetched word as a number: the byte at the lower address is the high byte (R51). -/
theorem joinBytes_toNat (hi lo : Byte) : (joinBytes hi lo).toNat = hi.toNat * 256 + lo.toNat := by
  have := lo.isLt
  rw [joinBytes, BitVec.toNat_append, ← Nat.shiftLeft_add_eq_or_of_lt (by omega), Nat.shiftLeft_eq]

/-! ### The call stack -/

/-- Everything a push can do. -/
theorem State.push_cases (s : State) (w : Word) :
    (s.sp.val = 16 ∧ s.push w = .error .stackOverflow) ∨
    (∃ h : s.sp.val < 16, s.push w =
      .ok { s with stack := s.stack.set s.sp.val w h, sp := ⟨s.sp.val + 1, by omega⟩ }) := by
  unfold State.push
  split
  · exact Or.inr ⟨‹_›, rfl⟩
  · exact Or.inl ⟨by have := s.sp.isLt; omega, rfl⟩

/-- Everything a pop can do. -/
theorem State.pop_cases (s : State) :
    (s.sp.val = 0 ∧ s.pop = .error .stackUnderflow) ∨
    (s.sp.val ≠ 0 ∧ s.pop =
      .ok (s.stack[s.sp.val - 1]'(by omega), { s with sp := ⟨s.sp.val - 1, by omega⟩ })) := by
  unfold State.pop
  split
  · exact Or.inl ⟨‹_›, rfl⟩
  · exact Or.inr ⟨‹_›, rfl⟩

/-! ### The framebuffer -/

/-- Toggling a pixel flips it and leaves every other one alone. -/
theorem pix_togglePix (fb : Framebuffer) (x y x' y' : Nat) :
    pix (togglePix fb x y) x' y' = (pix fb x' y' ^^ decide (x' % 64 = x % 64 ∧ y' % 32 = y % 32)) := by
  unfold pix togglePix
  by_cases hy : y % 32 = y' % 32
  · have hx' : x' % 64 < 64 := Nat.mod_lt _ (by decide)
    simp only [hy, Vector.getElem_set_self, BitVec.getLsbD_xor, and_true]
    congr 1
    rw [BitVec.getLsbD_shiftLeft, BitVec.getLsbD_one, decide_eq_true hx']
    by_cases hx : x' % 64 = x % 64
    · simp [hx]
    · have : ¬ (x' % 64 - x % 64 = 0 ∧ ¬ x' % 64 < x % 64) := by omega
      by_cases h2 : x' % 64 < x % 64
      · simp [hx, h2]
      · have h3 : x' % 64 - x % 64 ≠ 0 := by omega
        simp [hx, h3]
  · rw [Vector.getElem_set_ne _ _ hy]
    have : ¬ (x' % 64 = x % 64 ∧ y' % 32 = y % 32) := by omega
    simp [this]

theorem pix_clearScreen (x y : Nat) : pix clearScreen x y = false := by
  simp [pix, clearScreen]

/-- Two framebuffers with the same pixels are the same. -/
theorem Framebuffer.ext_pix (a b : Framebuffer) (h : ∀ x < 64, ∀ y < 32, pix a x y = pix b x y) : a = b := by
  refine Vector.ext fun y hy => BitVec.eq_of_getLsbD_eq fun x hx => ?_
  have := h x hx y hy
  simp only [pix] at this
  simpa [Nat.mod_eq_of_lt hx, Nat.mod_eq_of_lt hy] using this

/-! ### The keys -/

/-- A found key is pressed, and no key of a smaller index is. -/
theorem State.firstKey_eq_some_iff (s : State) (k : Nat) :
    s.firstKey = some k ↔ k < 16 ∧ s.keyDown k = true ∧ ∀ j < k, s.keyDown j = false := by
  unfold State.firstKey
  rw [List.find?_range_eq_some]
  simp only [Bool.not_eq_true', List.mem_range, and_left_comm]

theorem State.firstKey_eq_none_iff (s : State) : s.firstKey = none ↔ ∀ k < 16, s.keyDown k = false := by
  simp [State.firstKey]

/-- Everything reading a key number can do. -/
theorem keyOperand_cases (s : State) (x : Reg) :
    ((s.reg x).toNat ≥ 16 ∧ keyOperand s x = .error (.invalidKeyIndex (s.reg x).toNat)) ∨
    ((s.reg x).toNat < 16 ∧ keyOperand s x = .ok (s.reg x).toNat) := by
  unfold keyOperand
  split
  · exact Or.inl ⟨‹_›, rfl⟩
  · exact Or.inr ⟨by omega, rfl⟩

/-! ### Flags -/

theorem flagByte_toNat (c : Bool) : (flagByte c).toNat = if c then 1 else 0 := by
  cases c <;> rfl

end Sys2Proof.Machine
end

