-- ==== Sys2Proof/Laws/PerInstr.lean ====
section
/-! SUPPORT. The per-instruction family: the operands of every instruction fit their fields, and its word is of a row of the
opcode map (30_encoding.md R82, R86). -/

namespace Sys2Proof.Laws.Encoding

/-- Every operand fits its field and the encoded word matches some row's mask and pattern. -/
def Statement (i : Instr) : Prop :=
  i.wellFormed = true ∧ ∃ r ∈ opcodeRows, r.accepts (encode i) = true

theorem formatNNN_family (top : Nibble) (nnn : Address12) :
    formatNNN top nnn &&& 0xF000#16 = top ++ 0#12 := by
  refine BitVec.eq_of_getLsbD_eq fun j hj => ?_
  simp only [formatNNN, BitVec.getLsbD_and, BitVec.getLsbD_append]
  interval_cases j <;> simp

theorem formatXNN_family (top : Nibble) (x : Reg) (nn : Byte) :
    formatXNN top x nn &&& 0xF000#16 = top ++ 0#12 := by
  refine BitVec.eq_of_getLsbD_eq fun j hj => ?_
  simp only [formatXNN, BitVec.getLsbD_and, BitVec.getLsbD_append]
  interval_cases j <;> simp

theorem formatXNN_byte (top : Nibble) (x : Reg) (nn : Byte) :
    formatXNN top x nn &&& 0xF0FF#16 = top ++ 0#4 ++ nn := by
  refine BitVec.eq_of_getLsbD_eq fun j hj => ?_
  simp only [formatXNN, BitVec.getLsbD_and, BitVec.getLsbD_append]
  interval_cases j <;> simp

theorem formatXYN_family (top : Nibble) (x y : Reg) (n : Nibble) :
    formatXYN top x y n &&& 0xF000#16 = top ++ 0#12 := by
  refine BitVec.eq_of_getLsbD_eq fun j hj => ?_
  simp only [formatXYN, BitVec.getLsbD_and, BitVec.getLsbD_append]
  interval_cases j <;> simp

theorem formatXYN_nibble (top : Nibble) (x y : Reg) (n : Nibble) :
    formatXYN top x y n &&& 0xF00F#16 = top ++ 0#8 ++ n := by
  refine BitVec.eq_of_getLsbD_eq fun j hj => ?_
  simp only [formatXYN, BitVec.getLsbD_and, BitVec.getLsbD_append]
  interval_cases j <;> simp

/-- A word that meets a listed row's mask and pattern is of a row. -/
theorem row_of (k : Nat) (op pattern mask : Word) (build : Word → Instr)
    (hk : opcodeRows[k]? = some ⟨pattern, mask, build⟩) (h : op &&& mask = pattern) :
    ∃ r ∈ opcodeRows, r.accepts op = true :=
  ⟨_, List.mem_of_getElem? hk, by simp [OpcodeRow.accepts, h]⟩

theorem reg_fits (x : Reg) : Operand.inRange (.reg x.val) = true := by simp [Operand.inRange]

theorem imm4_fits (n : Nibble) : Operand.inRange (.imm4 n.toNat) = true := by
  have := n.isLt; simp [Operand.inRange]; omega

theorem imm8_fits (nn : Byte) : Operand.inRange (.imm8 nn.toNat) = true := by
  have := nn.isLt; simp [Operand.inRange]; omega

theorem imm12_fits (nnn : Address12) : Operand.inRange (.imm12 nnn.toNat) = true := by
  have := nnn.isLt; simp [Operand.inRange]; omega

theorem wf_xnn (x : Reg) (nn : Byte) : [Operand.reg x.val, .imm8 nn.toNat].all Operand.inRange = true := by
  simp only [List.all_cons, List.all_nil, reg_fits, imm8_fits, Bool.and_self]

theorem wf_xy (x y : Reg) : [Operand.reg x.val, .reg y.val].all Operand.inRange = true := by
  simp only [List.all_cons, List.all_nil, reg_fits, Bool.and_self]

theorem wf_x (x : Reg) : [Operand.reg x.val].all Operand.inRange = true := by
  simp only [List.all_cons, List.all_nil, reg_fits, Bool.and_self]

theorem wf_nnn (nnn : Address12) : [Operand.imm12 nnn.toNat].all Operand.inRange = true := by
  simp only [List.all_cons, List.all_nil, imm12_fits, Bool.and_self]

theorem wf_xyn (x y : Reg) (n : Nibble) :
    [Operand.reg x.val, .reg y.val, .imm4 n.toNat].all Operand.inRange = true := by
  simp only [List.all_cons, List.all_nil, reg_fits, imm4_fits, Bool.and_self]

theorem nop : Statement .nop := ⟨rfl, row_of 0 _ _ _ _ rfl rfl⟩
theorem cls : Statement .cls := ⟨rfl, row_of 1 _ _ _ _ rfl rfl⟩
theorem ret : Statement .ret := ⟨rfl, row_of 2 _ _ _ _ rfl rfl⟩
theorem jp (nnn : Address12) : Statement (.jp nnn) := ⟨wf_nnn nnn, row_of 3 _ _ _ _ rfl (formatNNN_family _ nnn)⟩
theorem call (nnn : Address12) : Statement (.call nnn) := ⟨wf_nnn nnn, row_of 4 _ _ _ _ rfl (formatNNN_family _ nnn)⟩
theorem seImm (x : Reg) (nn : Byte) : Statement (.seImm x nn) :=
  ⟨wf_xnn x nn, row_of 5 _ _ _ _ rfl (formatXNN_family _ x nn)⟩
theorem sneImm (x : Reg) (nn : Byte) : Statement (.sneImm x nn) :=
  ⟨wf_xnn x nn, row_of 6 _ _ _ _ rfl (formatXNN_family _ x nn)⟩
theorem seReg (x y : Reg) : Statement (.seReg x y) := ⟨wf_xy x y, row_of 7 _ _ _ _ rfl (formatXYN_nibble _ x y _)⟩
theorem ldImm (x : Reg) (nn : Byte) : Statement (.ldImm x nn) :=
  ⟨wf_xnn x nn, row_of 8 _ _ _ _ rfl (formatXNN_family _ x nn)⟩
theorem addImm (x : Reg) (nn : Byte) : Statement (.addImm x nn) :=
  ⟨wf_xnn x nn, row_of 9 _ _ _ _ rfl (formatXNN_family _ x nn)⟩
theorem ldReg (x y : Reg) : Statement (.ldReg x y) := ⟨wf_xy x y, row_of 10 _ _ _ _ rfl (formatXYN_nibble _ x y _)⟩
theorem orReg (x y : Reg) : Statement (.orReg x y) := ⟨wf_xy x y, row_of 11 _ _ _ _ rfl (formatXYN_nibble _ x y _)⟩
theorem andReg (x y : Reg) : Statement (.andReg x y) := ⟨wf_xy x y, row_of 12 _ _ _ _ rfl (formatXYN_nibble _ x y _)⟩
theorem xorReg (x y : Reg) : Statement (.xorReg x y) := ⟨wf_xy x y, row_of 13 _ _ _ _ rfl (formatXYN_nibble _ x y _)⟩
theorem addReg (x y : Reg) : Statement (.addReg x y) := ⟨wf_xy x y, row_of 14 _ _ _ _ rfl (formatXYN_nibble _ x y _)⟩
theorem subReg (x y : Reg) : Statement (.subReg x y) := ⟨wf_xy x y, row_of 15 _ _ _ _ rfl (formatXYN_nibble _ x y _)⟩
theorem shr (x y : Reg) : Statement (.shr x y) := ⟨wf_xy x y, row_of 16 _ _ _ _ rfl (formatXYN_nibble _ x y _)⟩
theorem subn (x y : Reg) : Statement (.subn x y) := ⟨wf_xy x y, row_of 17 _ _ _ _ rfl (formatXYN_nibble _ x y _)⟩
theorem shl (x y : Reg) : Statement (.shl x y) := ⟨wf_xy x y, row_of 18 _ _ _ _ rfl (formatXYN_nibble _ x y _)⟩
theorem sneReg (x y : Reg) : Statement (.sneReg x y) := ⟨wf_xy x y, row_of 19 _ _ _ _ rfl (formatXYN_nibble _ x y _)⟩
theorem ldI (nnn : Address12) : Statement (.ldI nnn) := ⟨wf_nnn nnn, row_of 20 _ _ _ _ rfl (formatNNN_family _ nnn)⟩
theorem jpV0 (nnn : Address12) : Statement (.jpV0 nnn) := ⟨wf_nnn nnn, row_of 21 _ _ _ _ rfl (formatNNN_family _ nnn)⟩
theorem rnd (x : Reg) (nn : Byte) : Statement (.rnd x nn) :=
  ⟨wf_xnn x nn, row_of 22 _ _ _ _ rfl (formatXNN_family _ x nn)⟩
theorem drw (x y : Reg) (n : Nibble) : Statement (.drw x y n) :=
  ⟨wf_xyn x y n, row_of 23 _ _ _ _ rfl (formatXYN_family _ x y n)⟩
theorem skp (x : Reg) : Statement (.skp x) := ⟨wf_x x, row_of 24 _ _ _ _ rfl (formatXNN_byte _ x _)⟩
theorem sknp (x : Reg) : Statement (.sknp x) := ⟨wf_x x, row_of 25 _ _ _ _ rfl (formatXNN_byte _ x _)⟩
theorem ldVxDt (x : Reg) : Statement (.ldVxDt x) := ⟨wf_x x, row_of 26 _ _ _ _ rfl (formatXNN_byte _ x _)⟩
theorem ldVxK (x : Reg) : Statement (.ldVxK x) := ⟨wf_x x, row_of 27 _ _ _ _ rfl (formatXNN_byte _ x _)⟩
theorem ldDtVx (x : Reg) : Statement (.ldDtVx x) := ⟨wf_x x, row_of 28 _ _ _ _ rfl (formatXNN_byte _ x _)⟩
theorem ldStVx (x : Reg) : Statement (.ldStVx x) := ⟨wf_x x, row_of 29 _ _ _ _ rfl (formatXNN_byte _ x _)⟩
theorem addI (x : Reg) : Statement (.addI x) := ⟨wf_x x, row_of 30 _ _ _ _ rfl (formatXNN_byte _ x _)⟩

end Sys2Proof.Laws.Encoding
end

