-- ==== Sys2Proof/Laws/Transactions.lean ====
section
/-! SUPPORT. What each transaction can do, one lemma each. -/

namespace Sys2Proof.Machine

@[simp] theorem commit_next (s t : State) : commit s (.next t) = (.ok, t) := rfl
@[simp] theorem commit_fault (s : State) (f : Fault) : commit s (.fault f) = (.failed f, s) := rfl
@[simp] theorem commit_refused (s : State) (r : Refusal) : commit s (.refused r) = (.refused r, s) := rfl

theorem tickDown_toNat (b : Byte) : (tickDown b).toNat = b.toNat - 1 := by
  unfold tickDown
  split
  · have := b.isLt
    rw [BitVec.toNat_sub]
    change (2 ^ 8 - 1 + b.toNat) % 2 ^ 8 = b.toNat - 1
    omega
  · omega

/-- Everything a step can do before its instruction runs (R232). -/
theorem step_cases (s : State) :
    (s.pc.toNat ≥ 4095 ∧ step s = .fault (.outOfBoundsMemoryAccess (max s.pc.toNat 4096))) ∨
    (∃ op e, fetch s = .ok op ∧ decode op = .error e ∧ step s = .fault (.invalidOpcode op)) ∨
    (∃ op i, fetch s = .ok op ∧ decode op = .ok i ∧ step s = exec i s) := by
  unfold step
  cases hf : fetch s with
  | error f =>
    obtain ⟨hp, rfl⟩ := (fetch_eq_error_iff s f).1 hf
    exact Or.inl ⟨hp, rfl⟩
  | ok op =>
    cases hd : decode op with
    | error e => exact Or.inr (Or.inl ⟨op, e, rfl, hd, by simp [hd, raise]⟩)
    | ok i => exact Or.inr (Or.inr ⟨op, i, rfl, hd, by simp [hd]⟩)

/-- Everything `set_key` can do (R207). -/
theorem setKey_cases (index : Byte) (pressed : Bool) (s : State) :
    (index.toNat ≥ 16 ∧ setKey index pressed s = .fault (.invalidKeyIndex index.toNat)) ∨
    (index.toNat < 16 ∧ ∃ t, setKey index pressed s = .next t ∧
      t = { s with keys := t.keys } ∧ ∀ k < 16, t.keyDown k = if k = index.toNat then pressed else s.keyDown k) := by
  unfold setKey
  split
  · exact Or.inl ⟨‹_›, rfl⟩
  · refine Or.inr ⟨by omega, _, rfl, rfl, fun k hk => ?_⟩
    cases pressed <;>
      simp only [State.keyDown, BitVec.getLsbD_or, BitVec.getLsbD_and, BitVec.getLsbD_not, BitVec.getLsbD_shiftLeft,
        BitVec.getLsbD_one, Bool.false_eq_true, if_true, if_false, hk, decide_true, Bool.true_and] <;>
      by_cases h : k = index.toNat
    · simp [h]
    · by_cases h2 : k < index.toNat
      · simp [h, h2]
      · have : k - index.toNat ≠ 0 := by omega
        simp [h, h2, this]
    · simp [h]
    · by_cases h2 : k < index.toNat
      · simp [h, h2]
      · have : k - index.toNat ≠ 0 := by omega
        simp [h, h2, this]

/-- Everything `load` can do (R202, R203). -/
theorem load_cases (rom : List Byte) (s : State) :
    (rom.length > 3584 ∧ load rom s = .fault (.romTooLarge rom.length)) ∨
    (rom.length ≤ 3584 ∧ load rom s = .next { s with mem := Memory.writeBytes s.mem 0x200 rom }) := by
  unfold load
  split
  · exact Or.inl ⟨‹_›, rfl⟩
  · exact Or.inr ⟨by omega, rfl⟩

/-- A word placed at a `pc` that can be fetched from is what the next fetch gives. -/
theorem fetch_withFetchWord (s : State) (nbits w : Nat) (h : Memory.wf s.mem = true) (hpc : s.pc.toNat ≤ 4094) :
    fetch (s.withFetchWord nbits w) = .ok (BitVec.ofNat 16 (w % 2 ^ nbits)) := by
  have hlen : s.pc.toNat + [highByte (BitVec.ofNat 16 (w % 2 ^ nbits)), lowByte (BitVec.ofNat 16 (w % 2 ^ nbits))].length
      ≤ 4096 := by simp only [List.length_cons, List.length_nil]; omega
  rw [fetch_eq_ok_iff, State.withFetchWord, if_neg (by omega)]
  refine ⟨hpc, ?_⟩
  rw [placeWord, Memory.read_writeBytes _ _ _ _ h hlen, Memory.read_writeBytes _ _ _ _ h hlen]
  simp only [List.length_cons, List.length_nil]
  rw [if_pos (by omega), if_pos (by omega), Nat.sub_self, Nat.add_sub_cancel_left]
  refine BitVec.eq_of_getLsbD_eq fun j hj => ?_
  simp only [List.getD_cons_zero, List.getD_cons_succ, joinBytes, highByte, lowByte, BitVec.getLsbD_append,
    BitVec.getLsbD_extractLsb']
  by_cases h8 : j < 8
  · simp [h8]
  · have : 8 + (j - 8) = j := by omega
    have h16 : j - 8 < 8 := by omega
    simp [h8, this, h16]

/-- The step of an instruction that is next is its meaning. -/
theorem step_of_nextInstr (s : State) (i : Instr) (h : NextInstr s i) : step s = exec i s := by
  obtain ⟨op, h1, h2⟩ := h
  simp [step, h1, h2]

/-- One more step at the end of a run. -/
theorem runSteps_succ_last (n : Nat) (s : State) :
    runSteps (n + 1) s = match runSteps n s with
      | .next t => step t
      | .fault f => .fault f
      | .refused r => .refused r := by
  induction n generalizing s with
  | zero => simp only [runSteps]; cases step s <;> rfl
  | succ n ih =>
    rw [runSteps]
    conv => rhs; rw [runSteps]
    cases step s with
    | next t => exact ih t
    | fault f => rfl
    | refused r => rfl

/-- A waiting step changes nothing (R193). -/
theorem step_of_waits (s : State) (h : Waits s) : step s = .next s := by
  obtain ⟨⟨x, hx⟩, hk⟩ := h
  rw [step_of_nextInstr s _ hx]
  show execLdVxK x s = .next s
  rw [execLdVxK, (State.firstKey_eq_none_iff s).2 hk]
  show Host.Outcome.next (s.setPc (s.pc + 2 - 2)) = .next s
  rw [BitVec.add_sub_cancel]
  rfl

/-- A reported key ends a wait (R193, R207). -/
theorem not_waits_of_reportsKey (r : Transaction) (s : State) (h : ReportsKey r) : ¬ Waits (transact r s).2 := by
  obtain ⟨k, hk, rfl⟩ := h
  rintro ⟨-, hu⟩
  rcases setKey_cases k true s with ⟨h', -⟩ | ⟨-, t, e, -, ht⟩
  · omega
  · have hd := hu k.toNat hk
    simp only [transact, e, commit_next, ht k.toNat hk, if_true] at hd
    cases hd

/-- Only a reported key, a `load` or a `reset` can end a wait (R210, R212). -/
theorem waits_transact (r : Transaction) (s : State) (h : Waits s) (hk : ¬ ReportsKey r) (hp : ¬ ReplacesProgram r) :
    Waits (transact r s).2 := by
  cases r with
  | step => rw [transact, step_of_waits s h]; exact h
  | tickTimers => exact h
  | display => exact h
  | reset => exact absurd (Or.inl rfl) hp
  | load rom => exact absurd (Or.inr ⟨rom, rfl⟩) hp
  | setKey k p =>
    rcases setKey_cases k p s with ⟨-, e⟩ | ⟨hlt, t, e, ht, hd⟩ <;> simp only [transact, e, commit_fault, commit_next]
    · exact h
    · cases p with
      | true => exact absurd ⟨k, hlt, rfl⟩ hk
      | false =>
        refine ⟨?_, fun j hj => ?_⟩
        · rw [ht]; exact h.1
        · rw [hd j hj, h.2 j hj]; exact ite_self _

/-- Under `KEY_EVENTUALLY` no wait lasts for ever (R212). -/
theorem wait_ends (sched : Nat → Transaction) (s : State) (h : KeyEventually sched s) (n : Nat)
    (hn : Waits (runSchedule sched s n)) : ∃ m, n < m ∧ ¬ Waits (runSchedule sched s m) := by
  obtain ⟨m, hm, -, hr | ⟨-, hr⟩⟩ := h n hn
  · exact ⟨m + 1, by omega, not_waits_of_reportsKey _ _ hr⟩
  · exact ⟨m + 1, by omega, hr⟩

end Sys2Proof.Machine
end

