-- ==== Sys2Proof/Tests/Slice0.lean ====
section
/-! SUPPORT. Tests on fixed values, from the spec's own vectors (95_test_vectors.md T and E numbers, and the corner cases the
rules name); the words are written out from the patterns of 30_encoding.md R86. The last part shows for every statement
of Certificates/Slice0/Obligations.lean that has hypotheses a state and operands that meet them all. -/

namespace Sys2Proof.Tests

open Sys2Proof Sys2Proof.Machine

/-! ### Well-formedness: one ill-formed term for each check (R81, R83, U1) -/

theorem test_wf_register_16_refused : Operand.inRange (.reg 16) = false := by decide
theorem test_wf_register_15_allowed : Operand.inRange (.reg 15) = true := by decide
theorem test_wf_nibble_16_refused : Operand.inRange (.imm4 16) = false := by decide
theorem test_wf_nibble_15_allowed : Operand.inRange (.imm4 15) = true := by decide
theorem test_wf_byte_256_refused : Operand.inRange (.imm8 256) = false := by decide
theorem test_wf_byte_255_allowed : Operand.inRange (.imm8 255) = true := by decide
theorem test_wf_address_4096_refused : Operand.inRange (.imm12 4096) = false := by decide
theorem test_wf_address_4095_allowed : Operand.inRange (.imm12 4095) = true := by decide
theorem test_wf_instruction : (Instr.drw 15 15 15).wellFormed = true := by decide

/-- `6FNN`, `7FNN`, `8FY6`, `CFNN`, `FF07`, `FF0A` use VF as a general register (U1). -/
theorem test_keepsFlag_refuses :
    [Instr.ldImm 15 0, .addImm 15 0, .shr 15 0, .rnd 15 0, .ldVxDt 15, .ldVxK 15].any Instr.keepsFlagRegister = false := by
  decide

/-- Reading VF (`8EF0`, `3FNN`) is no such use (U1). -/
theorem test_keepsFlag_allows : [Instr.ldReg 14 15, .seImm 15 1].all Instr.keepsFlagRegister = true := by decide

/-! ### Decoding: one word of each row of R86, written out bit by bit; then illegal words -/

/-- R86 row 1, `0000`. -/
theorem test_decode_nop : decode 0b0000000000000000#16 = .ok (.nop) := by decide
/-- row 2, `00E0`. -/
theorem test_decode_cls : decode 0b0000000011100000#16 = .ok (.cls) := by decide
/-- row 3, `00EE`. -/
theorem test_decode_ret : decode 0b0000000011101110#16 = .ok (.ret) := by decide
/-- row 4, `1NNN` with NNN = ABC. -/
theorem test_decode_jp : decode 0b0001101010111100#16 = .ok (.jp 0xABC) := by decide
/-- row 5, `2NNN` with NNN = 300. -/
theorem test_decode_call : decode 0b0010001100000000#16 = .ok (.call 0x300) := by decide
/-- row 6, `3XNN` with X = A, NN = 42. -/
theorem test_decode_seImm : decode 0b0011101001000010#16 = .ok (.seImm 10 0x42) := by decide
/-- row 7, `4XNN` with X = 2, NN = 07. -/
theorem test_decode_sneImm : decode 0b0100001000000111#16 = .ok (.sneImm 2 0x07) := by decide
/-- row 8, `5XY0` with X = 1, Y = 2. -/
theorem test_decode_seReg : decode 0b0101000100100000#16 = .ok (.seReg 1 2) := by decide
/-- row 9, `6XNN` with X = 0, NN = C8. -/
theorem test_decode_ldImm : decode 0b0110000011001000#16 = .ok (.ldImm 0 0xC8) := by decide
/-- row 10, `7XNN` with X = A, NN = FF. -/
theorem test_decode_addImm : decode 0b0111101011111111#16 = .ok (.addImm 10 0xFF) := by decide
/-- row 11, `8XY0` with X = E, Y = F. -/
theorem test_decode_ldReg : decode 0b1000111011110000#16 = .ok (.ldReg 14 15) := by decide
/-- row 12, `8XY1`. -/
theorem test_decode_orReg : decode 0b1000000100100001#16 = .ok (.orReg 1 2) := by decide
/-- row 13, `8XY2`. -/
theorem test_decode_andReg : decode 0b1000000100100010#16 = .ok (.andReg 1 2) := by decide
/-- row 14, `8XY3`. -/
theorem test_decode_xorReg : decode 0b1000000100100011#16 = .ok (.xorReg 1 2) := by decide
/-- row 15, `8XY4`. -/
theorem test_decode_addReg : decode 0b1000000100100100#16 = .ok (.addReg 1 2) := by decide
/-- row 16, `8XY5`. -/
theorem test_decode_subReg : decode 0b1000000100100101#16 = .ok (.subReg 1 2) := by decide
/-- row 17, `8XY6`, the `Y` kept as it stands. -/
theorem test_decode_shr : decode 0b1000000100100110#16 = .ok (.shr 1 2) := by decide
/-- row 18, `8XY7`. -/
theorem test_decode_subn : decode 0b1000000100100111#16 = .ok (.subn 1 2) := by decide
/-- row 19, `8XYE`, the `Y` kept as it stands. -/
theorem test_decode_shl : decode 0b1000000100101110#16 = .ok (.shl 1 2) := by decide
/-- row 20, `9XY0`. -/
theorem test_decode_sneReg : decode 0b1001000100100000#16 = .ok (.sneReg 1 2) := by decide
/-- row 21, `ANNN` with NNN = 00A. -/
theorem test_decode_ldI : decode 0b1010000000001010#16 = .ok (.ldI 0x00A) := by decide
/-- row 22, `BNNN` with NNN = 300. -/
theorem test_decode_jpV0 : decode 0b1011001100000000#16 = .ok (.jpV0 0x300) := by decide
/-- row 23, `CXNN` with X = 1, NN = 0F. -/
theorem test_decode_rnd : decode 0b1100000100001111#16 = .ok (.rnd 1 0x0F) := by decide
/-- row 24, `DXYN` with X = 0, Y = 1, N = 5. -/
theorem test_decode_drw : decode 0b1101000000010101#16 = .ok (.drw 0 1 5) := by decide
/-- row 25, `EX9E`. -/
theorem test_decode_skp : decode 0b1110000110011110#16 = .ok (.skp 1) := by decide
/-- row 26, `EXA1`. -/
theorem test_decode_sknp : decode 0b1110000110100001#16 = .ok (.sknp 1) := by decide
/-- row 27, `FX07`. -/
theorem test_decode_ldVxDt : decode 0b1111000100000111#16 = .ok (.ldVxDt 1) := by decide
/-- row 28, `FX0A`. -/
theorem test_decode_ldVxK : decode 0b1111001000001010#16 = .ok (.ldVxK 2) := by decide
/-- row 29, `FX15`. -/
theorem test_decode_ldDtVx : decode 0b1111000000010101#16 = .ok (.ldDtVx 0) := by decide
/-- row 30, `FX18`. -/
theorem test_decode_ldStVx : decode 0b1111000100011000#16 = .ok (.ldStVx 1) := by decide
/-- row 31, `FX1E`. -/
theorem test_decode_addI : decode 0b1111000100011110#16 = .ok (.addI 1) := by decide

/-- T6 to T11: no `0NNN`, and a `0` of a pattern must be 0. -/
theorem test_decode_illegal_a :
    [0x0001, 0x00E1, 0x0123, 0x0FFF, 0x5121, 0x912F, 0x8128, 0x812F].all
      (fun op : Word => decide (decode op = .error (.illegal op))) = true := by decide

/-- T12 to T14: the absent instructions among them. -/
theorem test_decode_illegal_b :
    [0xE100, 0xE19F, 0xF129, 0xF133, 0xF155, 0xF165, 0xFFFF].all
      (fun op : Word => decide (decode op = .error (.illegal op))) = true := by decide

/-- R51, R80: the byte at the lower address is the high one. -/
theorem test_decodeBytes_order : decodeBytes [0x60, 0xC8, 0x12] = .ok (.ldImm 0 0xC8, [0x12]) := by decide
theorem test_decodeBytes_truncated : decodeBytes [0x60] = .error .truncated := by decide
theorem test_decodeTableWord : decodeTableWord 16 0xD015 = some (.drw 0 1 5) := by decide

/-! ### Steps (T1 to T153). `V`, the stack, and so on start as the vector says, all else as after reset -/

/-- The state after reset with a word at `pc` and some V registers set. -/
def start (w : Nat) (regs : List (Reg × Byte) := []) : State :=
  regs.foldl (fun s p => s.setReg p.1 p.2) (State.reset.withFetchWord 16 w)

/-- The state after reset with one byte of memory written. -/
def withByte (s : State) (a : Nat) (b : Byte) : State := { s with mem := Memory.write s.mem a b }

/-- A function of the state after a step, if the step succeeds. -/
def after {α : Type} (s : State) (f : State → α) : Option α :=
  match step s with
  | .next t => some (f t)
  | .fault _ => none
  | .refused _ => none

/-- The failure of a step, if it fails. -/
def failure (s : State) : Option Fault :=
  match step s with
  | .next _ => none
  | .fault f => some f
  | .refused _ => none

/-- The lit pixels among some positions. -/
def lit (s : State) (ps : List (Nat × Nat)) : List Bool := ps.map (fun p => pix s.fb p.1 p.2)

/-- The number of lit pixels. -/
def litCount (s : State) : Nat :=
  (s.fb.toList.map (fun row => ((List.range 64).filter (fun x => row.getLsbD x)).length)).sum

/-- T1. -/
theorem test_fetch_last_word : after { State.reset with pc := 0xFFE } (fun t => t.pc) = some 0x1000 := by decide
/-- T2, T3, T4. -/
theorem test_fetch_past_end : [0xFFF, 0x1000, 0x10FE].map (fun pc => failure { State.reset with pc := pc }) =
    [some (.outOfBoundsMemoryAccess 0x1000), some (.outOfBoundsMemoryAccess 0x1000), some (.outOfBoundsMemoryAccess 0x10FE)] := by decide
/-- T5. -/
theorem test_fetch_odd : after (State.withFetchWord { State.reset with pc := 0x201 } 16 0x00E0) (fun t => t.pc) = some 0x203 := by decide
/-- T14. -/
theorem test_invalid_opcode : failure (start 0xFFFF) = some (.invalidOpcode 0xFFFF) := by decide
/-- T20. -/
theorem test_nop : after (start 0x0000) id = some { State.reset with pc := 0x202 } := by decide
/-- T21. -/
theorem test_ret_empty : failure (start 0x00EE) = some .stackUnderflow := by decide
/-- T22. -/
theorem test_ret : after { start 0x00EE with sp := 1, stack := (Vector.replicate 16 0).set 0 0x0ABC }
    (fun t => (t.pc, t.sp, t.stack[0])) = some (0x0ABC, 0, 0x0ABC) := by decide
/-- T23. -/
theorem test_jp : after (start 0x1ABC) (fun t => t.pc) = some 0xABC := by decide
/-- T24. -/
theorem test_jp_self : after (start 0x1200) id = some (start 0x1200) := by decide
/-- T26. -/
theorem test_call : after (start 0x2300) (fun t => (t.pc, t.sp, t.stack[0])) = some (0x300, 1, 0x202) := by decide
/-- T27. -/
theorem test_call_full : failure { start 0x2300 with sp := 16 } = some .stackOverflow := by decide
/-- T28. -/
theorem test_jpV0 : after (start 0xB300 [(0, 0x04)]) (fun t => t.pc) = some 0x304 := by decide
/-- T29. -/
theorem test_jpV0_no_reduction : after (start 0xBFFF [(0, 0xFF)]) (fun t => t.pc) = some 0x10FE := by decide
/-- T30, T31. -/
theorem test_seImm : (after (start 0x3A42 [(10, 0x42)]) (fun t => t.pc), after (start 0x3A42 [(10, 0x43)]) (fun t => t.pc)) =
    (some 0x204, some 0x202) := by decide
/-- T39. -/
theorem test_seImm_last_word : after (State.withFetchWord { State.reset with pc := 0xFFE } 16 0x3000) (fun t => t.pc) = some 0x1002 := by decide
/-- T32, T33. -/
theorem test_sneImm : (after (start 0x4A42 [(10, 0x42)]) (fun t => t.pc), after (start 0x4A42 [(10, 0x43)]) (fun t => t.pc)) =
    (some 0x202, some 0x204) := by decide
/-- T34, T35. -/
theorem test_seReg : (after (start 0x5120 [(1, 7), (2, 7)]) (fun t => t.pc), after (start 0x5120 [(1, 7), (2, 8)]) (fun t => t.pc)) =
    (some 0x204, some 0x202) := by decide
/-- T37, T38. -/
theorem test_sneReg : (after (start 0x9120 [(1, 7), (2, 7)]) (fun t => t.pc), after (start 0x9120 [(1, 7), (2, 8)]) (fun t => t.pc)) =
    (some 0x202, some 0x204) := by decide
/-- T50. -/
theorem test_ldImm : after (start 0x6A7F [(10, 0x00), (15, 0x09)]) (fun t => (t.reg 10, t.reg 15, t.pc)) =
    some (0x7F, 0x09, 0x202) := by decide
/-- T51. -/
theorem test_ldImm_flag : after (start 0x6FAB []) (fun t => (t.reg 15, t.reg 15, t.pc)) =
    some (0xAB, 0xAB, 0x202) := by decide
/-- T53. -/
theorem test_addImm_wraps : after (start 0x7A01 [(10, 0xFF), (15, 0x09)]) (fun t => (t.reg 10, t.reg 15, t.pc)) =
    some (0x00, 0x09, 0x202) := by decide
/-- T54. -/
theorem test_addImm_flag : after (start 0x7F01 [(15, 0xFF)]) (fun t => (t.reg 15, t.reg 15, t.pc)) =
    some (0x00, 0x00, 0x202) := by decide
/-- T55. -/
theorem test_ldReg : after (start 0x8120 [(1, 0x11), (2, 0x22), (15, 0x07)]) (fun t => (t.reg 1, t.reg 15, t.pc)) =
    some (0x22, 0x07, 0x202) := by decide
/-- T82. -/
theorem test_ldReg_from_flag : after (start 0x81F0 [(15, 0x5A)]) (fun t => (t.reg 1, t.reg 15, t.pc)) =
    some (0x5A, 0x5A, 0x202) := by decide
/-- T56. -/
theorem test_orReg : after (start 0x8121 [(1, 0xF0), (2, 0x3C), (15, 0x07)]) (fun t => (t.reg 1, t.reg 15, t.pc)) =
    some (0xFC, 0x07, 0x202) := by decide
/-- T57. -/
theorem test_andReg : after (start 0x8122 [(1, 0xF0), (2, 0x3C), (15, 0x07)]) (fun t => (t.reg 1, t.reg 15, t.pc)) =
    some (0x30, 0x07, 0x202) := by decide
/-- T58. -/
theorem test_xorReg : after (start 0x8123 [(1, 0xF0), (2, 0x3C), (15, 0x07)]) (fun t => (t.reg 1, t.reg 15, t.pc)) =
    some (0xCC, 0x07, 0x202) := by decide
/-- T59. -/
theorem test_xorReg_same : after (start 0x8113 [(1, 0xF0), (15, 0x07)]) (fun t => (t.reg 1, t.reg 15, t.pc)) =
    some (0x00, 0x07, 0x202) := by decide
/-- T63. -/
theorem test_addReg_no_carry : after (start 0x8124 [(1, 0xFE), (2, 0x01), (15, 0x01)]) (fun t => (t.reg 1, t.reg 15, t.pc)) =
    some (0xFF, 0x00, 0x202) := by decide
/-- T78. -/
theorem test_addReg_flag_operand : after (start 0x81F4 [(1, 0xFF), (15, 0x01)]) (fun t => (t.reg 1, t.reg 15, t.pc)) =
    some (0x00, 0x01, 0x202) := by decide
/-- E3. -/
theorem test_subReg_borrow : after (start 0x8125 [(1, 0x01), (2, 0x02), (15, 0x01)]) (fun t => (t.reg 1, t.reg 15, t.pc)) =
    some (0xFF, 0x00, 0x202) := by decide
/-- T67. -/
theorem test_subReg_equal : after (start 0x8125 [(1, 0x80), (2, 0x80)]) (fun t => (t.reg 1, t.reg 15, t.pc)) =
    some (0x00, 0x01, 0x202) := by decide
/-- T69: `V2` plays no part. -/
theorem test_shr : after (start 0x8126 [(1, 0xFF), (2, 0x10)]) (fun t => (t.reg 1, t.reg 15, t.pc)) =
    some (0x7F, 0x01, 0x202) := by decide
/-- T92. -/
theorem test_shr_flag : after (start 0x8F06 [(15, 0x03)]) (fun t => (t.reg 15, t.reg 15, t.pc)) =
    some (0x00, 0x00, 0x202) := by decide
/-- T73. -/
theorem test_subn : after (start 0x8127 [(1, 0x01), (2, 0x02)]) (fun t => (t.reg 1, t.reg 15, t.pc)) =
    some (0x01, 0x01, 0x202) := by decide
/-- T81. -/
theorem test_subn_flag_operand : after (start 0x81F7 [(1, 0x05), (15, 0x03)]) (fun t => (t.reg 1, t.reg 15, t.pc)) =
    some (0xFE, 0x00, 0x202) := by decide
/-- T77: `V2` plays no part. -/
theorem test_shl : after (start 0x812E [(1, 0x80), (2, 0x33)]) (fun t => (t.reg 1, t.reg 15, t.pc)) =
    some (0x00, 0x01, 0x202) := by decide
/-- T94. -/
theorem test_shl_flag : after (start 0x8F0E [(15, 0x81)]) (fun t => (t.reg 15, t.reg 15, t.pc)) =
    some (0x02, 0x02, 0x202) := by decide
/-- T100. -/
theorem test_ldI : after (start 0xAFFF) (fun t => (t.i, t.pc)) = some (0x0FFF, 0x202) := by decide
/-- T103. -/
theorem test_addI_not_twelve_bits : after { start 0xF11E [(1, 0xFF)] with i := 0x0FFF } (fun t => (t.i, t.reg 15)) = some (0x10FE, 0) := by decide
/-- T104. -/
theorem test_addI_wraps : after { start 0xF11E [(1, 0x01), (15, 0x05)] with i := 0xFFFF } (fun t => (t.i, t.reg 15)) = some (0x0000, 0x05) := by decide
/-- The V register a `CXNN` writes when a given byte is drawn. -/
def drawn (r : Byte) (x : Reg) (nn : Byte) : Option Byte :=
  match execRndWith r x nn State.reset with
  | .next t => some (t.reg x)
  | .fault _ => none
  | .refused _ => none

/-- T107, T110. -/
theorem test_rnd : (drawn 0xA7 1 0x0F, drawn 0x3C 15 0xF0) = (some 0x07, some 0x30) := by decide
/-- R172: one draw for a `CXNN`, none for another instruction. -/
theorem test_rnd_counts_the_draw : (after (start 0xC10F) (fun t => t.draws), after (start 0x610F) (fun t => t.draws)) = (some 1, some 0) := by decide
/-- A screen with every pixel lit. -/
def allLit : Framebuffer := Vector.replicate 32 0xFFFFFFFFFFFFFFFF

/-- T120. -/
theorem test_cls : after { start 0x00E0 [(15, 1)] with fb := allLit } (fun t => (decide (t.fb = clearScreen), t.reg 15)) = some (true, 1) := by decide +kernel
/-- T123: the pixels it names are lit and no other. -/
theorem test_drw_wraps : after { withByte (withByte (start 0xD012 [(0, 60), (1, 31)]) 0x300 0xFF) 0x301 0x81 with i := 0x300 }
    (fun t => (lit t [(60, 31), (61, 31), (62, 31), (63, 31), (0, 31), (1, 31), (2, 31), (3, 31), (60, 0), (3, 0)],
      litCount t, t.reg 15)) = some (List.replicate 10 true, 10, 0) := by decide +kernel
/-- The corners: T122's second step puts the pixel out; T131 reads the coordinates before VF is written; T126 draws no row
at any `I`; T127, T128 and T130 end at the last byte, beyond it, and do not wrap. -/
theorem test_drw_corners :
    after { withByte (start 0xD011 [(0, 5), (1, 5)]) 0x300 0x80 with i := 0x300, fb := (Vector.replicate 32 0).set 5 0x20 }
      (fun t => (litCount t, t.reg 15, t.pc)) = some (0, 1, 0x202) ∧
    after { withByte (start 0xDFF1 [(15, 5)]) 0x300 0x80 with i := 0x300 } (fun t => (lit t [(5, 5)], litCount t, t.reg 15)) =
      some ([true], 1, 0) ∧
    after { start 0xD000 [(15, 7)] with i := 0xFFFF } (fun t => (litCount t, t.reg 15)) = some (0, 0) ∧
    after { start 0xD00F with i := 0xFF1 } (fun t => t.reg 15) = some 0 ∧
    failure { start 0xD00F with i := 0xFF2 } = some (.outOfBoundsMemoryAccess 0x1000) ∧
    failure { start 0xD001 with i := 0xFFFF } = some (.outOfBoundsMemoryAccess 0xFFFF) := by decide +kernel
/-- T140, T141. -/
theorem test_skp : (after { start 0xE19E [(1, 0x0F)] with keys := 0x8000 } (fun t => t.pc), after (start 0xE19E [(1, 0x0F)]) (fun t => t.pc)) =
    (some 0x204, some 0x202) := by decide
/-- T144. -/
theorem test_skp_key_16 : failure (start 0xE19E [(1, 0x10)]) = some (.invalidKeyIndex 0x10) := by decide
/-- T142, T143. -/
theorem test_sknp : (after { start 0xE1A1 [(1, 0x0F)] with keys := 0x8000 } (fun t => t.pc), after (start 0xE1A1 [(1, 0x0F)]) (fun t => t.pc)) =
    (some 0x202, some 0x204) := by decide
/-- T145. -/
theorem test_sknp_key_255 : failure (start 0xE1A1 [(1, 0xFF)]) = some (.invalidKeyIndex 0xFF) := by decide
/-- T146. -/
theorem test_ldVxK_waits : after (start 0xF20A) id = some (start 0xF20A) := by decide
/-- T147. -/
theorem test_ldVxK_least : after { start 0xF20A with keys := 0x0090 } (fun t => (t.reg 2, t.pc)) = some (4, 0x202) := by decide
/-- T150. -/
theorem test_ldVxDt : after { start 0xF107 with dt := 0x2A } (fun t => (t.reg 1, t.dt)) = some (0x2A, 0x2A) := by decide
/-- T151. -/
theorem test_ldDtVx : after (start 0xF115 [(1, 0xFF)]) (fun t => (t.dt, t.st)) = some (0xFF, 0) := by decide
/-- T152, T153. -/
theorem test_ldStVx : (after (start 0xF118 [(1, 0x01)]) (fun t => t.st), after { start 0xF118 with st := 0x05 } (fun t => t.st)) = (some 1, some 0) := by decide


/-! ### The other transactions (T160 to T171, E4, E9) -/

/-- T160 to T163. -/
theorem test_tick : ([(0, 0), (1, 2), (0, 1), (0xFF, 0xFF)] : List (Byte × Byte)).map (fun p =>
      match transact .tickTimers { State.reset with dt := p.1, st := p.2 } with
      | (r, t) => (r, t.dt, t.st)) =
    [(.ticked false, 0, 0), (.ticked false, 0, 1), (.ticked true, 0, 0), (.ticked false, 0xFE, 0xFE)] := by decide
/-- T164. -/
theorem test_setKey : transact (.setKey 0x0F true) State.reset = (.ok, { State.reset with keys := 0x8000 }) := by decide
/-- T165. -/
theorem test_setKey_level : transactAll [.setKey 0x0F true, .setKey 0x0F true, .setKey 0x0F false] State.reset = State.reset := by decide
/-- T166. -/
theorem test_setKey_16 : transact (.setKey 0x10 true) State.reset = (.failed (.invalidKeyIndex 0x10), State.reset) := by decide
/-- T167, T168. -/
theorem test_load : (transact (.load []) State.reset = (.ok, State.reset)) ∧
    (transact (.load [0x12, 0x00]) { State.reset with pc := 0x345 }).2.mem = [(0x200, 0x12)] := by decide
/-- T169. -/
theorem test_load_too_large (s : State) :
    transact (.load (List.replicate 3585 0xAA)) s = (.failed (.romTooLarge 3585), s) := by
  rcases load_cases (List.replicate 3585 0xAA) s with ⟨_, e⟩ | ⟨h, _⟩
  · rw [transact, e, commit_fault, List.length_replicate]
  · rw [List.length_replicate] at h; omega

/-- T170, E4: from a state with everything disturbed; the draw counter, which is the model's, is kept. -/
theorem test_reset : transact .reset { start 0x6A7F [(3, 7)] with sp := 3, i := 9, fb := allLit, keys := 0x00FF, dt := 1, st := 2, draws := 5 } =
    (.ok, { State.reset with draws := 5 }) := by decide +kernel
/-- T171. -/
theorem test_display_bit : displayBit { State.reset with fb := (Vector.replicate 32 0).set 5 0x20 } 325 = true := by decide +kernel
/-- R228. -/
theorem test_failed_step_keeps_state : transact .step (start 0x00EE) = (.failed .stackUnderflow, start 0x00EE) := by decide
/-- The host's interface runs the same step. -/
theorem test_core : Sys2Proof.core.run 1 (start 0x1ABC) = .next { start 0x1ABC with pc := 0xABC } := by rfl

/-! ### Witnesses: states and operands that meet all the hypotheses of a statement, one for each clause that has any -/

/-- The instruction a state's next step executes. -/
def isNext (s : State) (i : Instr) : Bool :=
  match fetch s with
  | .ok op => decide (decode op = .ok i)
  | .error _ => false

theorem nextInstr_of_isNext (s : State) (i : Instr) (h : isNext s i = true) : NextInstr s i := by
  unfold isNext at h
  split at h
  · exact ⟨_, ‹_›, of_decide_eq_true h⟩
  · cases h

/-- What `start` leaves in memory is in the canonical form and above 0x1FF. -/
theorem start_machineInv (w : Nat) : MachineInv (start w) where
  memory := Memory.wf_writeBytes _ _ _ rfl (by show 0x200 + 2 ≤ 4096; decide)
  pc := by show (0x200#16).toNat ≤ 0x10FE; decide
  stack := fun j hj => absurd hj (Nat.not_lt_zero _)
  low := fun a ha => by
    have R := Memory.read_writeBytes [] 0x200 [highByte (BitVec.ofNat 16 (w % 2 ^ 16)), lowByte (BitVec.ofNat 16 (w % 2 ^ 16))] a
      rfl (by show 0x200 + 2 ≤ 4096; decide)
    rw [if_neg (by omega)] at R
    exact R

theorem witness_EncodeOfDecode : decode 0x8126 = .ok (.shr 1 2) := by decide
theorem witness_InvalidOpcode : step (start 0x0001) = .fault (.invalidOpcode 0x0001) := by rfl
/-- One illegal word of each clause at its bounds, and the legal words beside them. -/
theorem witness_IllegalWords :
    [0x0001, 0x0FFF, 0x5001, 0x500F, 0x8008, 0x800D, 0x800F, 0x9001, 0x900F, 0xE09D, 0xE0A2, 0xF006, 0xF01F].all
      (fun op : Word => decide (decode op = .error (.illegal op))) = true ∧
    [0x0000, 0x00E0, 0x00EE, 0x1000, 0x5FF0, 0x8007, 0x800E, 0x9FF0, 0xE09E, 0xE0A1, 0xF007, 0xF01E].all
      (fun op : Word => decide (decode op ≠ .error (.illegal op))) = true := by decide

theorem witness_Ret_next : { State.reset with sp := 16 }.sp.val ≠ 0 ∧ { State.reset with sp := 1 }.sp.val ≠ 0 := by decide
theorem witness_Ret_fault : (start 0x00EE).sp.val = 0 ∧ NextInstr (start 0x00EE) .ret :=
  ⟨rfl, nextInstr_of_isNext _ _ (by decide)⟩
theorem witness_Jp_last : ∃ t, exec (.jp 0xFFF) State.reset = .next t := ⟨_, rfl⟩
theorem witness_Call_next : State.reset.sp.val < 16 ∧ { State.reset with sp := 15 }.sp.val < 16 := by decide
theorem witness_Call_fault :
    ({ start 0x2300 with sp := 16 } : State).sp.val = 16 ∧ NextInstr { start 0x2300 with sp := 16 } (.call 0x300) :=
  ⟨rfl, nextInstr_of_isNext _ _ (by decide)⟩

theorem witness_Logic : (14 : Reg) ≠ Reg.flag ∧ ∃ t, exec (.orReg 14 15) State.reset = .next t := ⟨by decide, _, rfl⟩
/-- Two states that differ in every register but `V[1]`. -/
theorem witness_Shifts :
    State.reset.reg 1 = { State.reset with v := (Vector.replicate 16 9).set 1 0 }.reg 1 ∧
    (∃ t, exec (.shr 1 2) State.reset = .next t) ∧
    ∃ t, exec (.shr 1 2) { State.reset with v := (Vector.replicate 16 9).set 1 0 } = .next t :=
  ⟨by decide, ⟨_, rfl⟩, ⟨_, rfl⟩⟩
theorem witness_Flag_written : (∃ t, exec (.addReg 14 15) State.reset = .next t) ∧
    Reg.flag ∉ (Instr.addReg 14 15).destination ∧ (Instr.addReg 14 15).writesFlag = true := ⟨⟨_, rfl⟩, by decide, rfl⟩
theorem witness_Flag_kept : (∃ t, exec (.addImm 14 1) State.reset = .next t) ∧
    Reg.flag ∉ (Instr.addImm 14 1).destination ∧ (Instr.addImm 14 1).writesFlag = false := ⟨⟨_, rfl⟩, by decide, rfl⟩

theorem witness_Cls_clear : ∀ x < 64, ∀ y < 32, pix State.reset.fb x y = false := by decide +kernel
/-- `N = 0` beyond memory, and 15 rows that end at the last byte (R183). -/
theorem witness_Drw : (0#4).toNat = 0 ∧ ({ State.reset with i := 0xFF1 } : State).i.toNat + (15#4).toNat ≤ 4096 := by decide
theorem witness_Drw_beyond : (15#4).toNat ≥ 1 ∧ ({ State.reset with i := 0xFF2 } : State).i.toNat + (15#4).toNat > 4096 ∧
    (1#4).toNat ≥ 1 ∧ ({ State.reset with i := 0x1000 } : State).i.toNat + (1#4).toNat > 4096 := by decide
/-- E6: glyph "0" drawn twice. -/
theorem witness_DrawingTwice : ∃ t u, exec (.drw 0 0 5) State.reset = .next t ∧ exec (.drw 0 0 5) t = .next u ∧
    t.reg 0 = State.reset.reg 0 := by
  refine ⟨_, _, rfl, rfl, ?_⟩
  decide +kernel
/-- `X = 15` with a sprite of no set bit (`N = 0`): VF, 0 before, is 0 after, so the second draw is at the same place. -/
theorem witness_DrawingTwice_flag : ∃ t u, exec (.drw 15 0 0) State.reset = .next t ∧ exec (.drw 15 0 0) t = .next u ∧
    t.reg 15 = State.reset.reg 15 ∧ t.reg 0 = State.reset.reg 0 :=
  ⟨_, _, rfl, rfl, by decide +kernel, by decide +kernel⟩

theorem witness_KeySkips : ((start 0xE19E [(1, 15)]).reg 1).toNat < 16 ∧ ((start 0xE19E [(1, 16)]).reg 1).toNat ≥ 16 := by
  decide
/-- Key 15 alone, and no key. -/
theorem witness_WaitForKey :
    ({ State.reset with keys := 0x8000 }.keyDown 15 = true ∧ ∀ j < 15, { State.reset with keys := 0x8000 }.keyDown j = false) ∧
    ∀ k < 16, State.reset.keyDown k = false := by decide
theorem witness_Delay : (start 0xF315 [(3, 5)]).reg 3 = 5 := by decide
theorem witness_Sound_next : NextInstr (start 0xF118) (.ldStVx 1) := nextInstr_of_isNext _ _ (by decide)
theorem witness_Sound_others : ∀ x, Instr.ldVxDt 1 ≠ .ldStVx x := by decide

theorem witness_SetKey : (15#8).toNat < 16 ∧ (16#8).toNat ≥ 16 := by decide
theorem witness_Load : Memory.wf State.reset.mem = true ∧ (List.replicate 3584 (0xAA : Byte)).length ≤ 3584 ∧
    (List.replicate 3585 (0xAA : Byte)).length > 3584 := by
  refine ⟨rfl, ?_, ?_⟩ <;> rw [List.length_replicate]
  decide
/-- The last two bytes of a longest image. -/
theorem witness_LoadIsSeen : 3582 + 1 < (List.replicate 3584 (0xAA : Byte)).length ∧ Memory.wf State.reset.mem = true ∧
    (List.replicate 3584 (0xAA : Byte)).length ≤ 3584 ∧ ({ State.reset with pc := 0xFFE } : State).pc.toNat = 0x200 + 3582 := by
  refine ⟨?_, rfl, ?_, rfl⟩ <;> rw [List.length_replicate]
  decide
theorem witness_StepRuns : (start 0xD015).pc.toNat ≤ 4094 ∧ (Instr.drw 0 1 5).wellFormed = true ∧
    decodeBytes [Memory.read (start 0xD015).mem 0x200, Memory.read (start 0xD015).mem 0x201] = .ok (.drw 0 1 5, []) := by decide
theorem witness_Fetch : ({ State.reset with pc := 4094 } : State).pc.toNat ≤ 4094 ∧
    ({ State.reset with pc := 4095 } : State).pc.toNat ≥ 4095 := by decide
theorem witness_Failure : (transact .step (start 0x00EE)).1 = .failed .stackUnderflow ∧
    (transact (.setKey 16 true) State.reset).1 = .failed (.invalidKeyIndex 16) := by decide
/-- A failure of a step, of a `load` and of a `set_key`. -/
theorem witness_FailureKinds : step (start 0x00EE) = .fault .stackUnderflow ∧
    (transact (.load (List.replicate 3585 0xAA)) State.reset).1 = .failed (.romTooLarge 3585) ∧
    (transact (.setKey 16 true) State.reset).1 = .failed (.invalidKeyIndex 16) :=
  ⟨rfl, congrArg Prod.fst (test_load_too_large State.reset), rfl⟩
theorem witness_StackOverflow_step : step { start 0x2300 with sp := 16 } = .fault .stackOverflow := rfl

/-- Is every state before step `n` of a run about to execute the instruction, or the run stopped? -/
def repeats (i : Instr) (n : Nat) (s : State) : Bool :=
  (List.range n).all fun k =>
    match runSteps k s with
    | .next t => isNext t i
    | .fault _ => true
    | .refused _ => true

/-- Program P5: a `CALL` to itself, 17 times. -/
theorem witness_StackOverflow_run : (start 0x2200).sp.val = 0 ∧
    ∀ k < 17, ∀ t, runSteps k (start 0x2200) = .next t → ∃ nnn, NextInstr t (.call nnn) := by
  refine ⟨rfl, fun k hk t h => ⟨0x200, nextInstr_of_isNext _ _ ?_⟩⟩
  have A : repeats (.call 0x200) 17 (start 0x2200) = true := by decide +kernel
  have B := List.all_eq_true.1 A k (List.mem_range.2 hk)
  rw [h] at B
  exact B

theorem witness_Writes : ∃ t, exec (.drw 0 1 5) State.reset = .next t := ⟨_, rfl⟩
theorem witness_Timers : (∃ t, step (start 0xF115) = .next t) ∧ Transaction.load [] ≠ .step ∧ Transaction.load [] ≠ .tickTimers ∧
    Transaction.load [] ≠ .reset := ⟨⟨_, rfl⟩, by decide⟩
theorem witness_Host : Transaction.step ≠ .reset ∧ (∀ rom, Transaction.step ≠ .load rom) ∧ ∀ index p, Transaction.step ≠ .setKey index p :=
  ⟨by decide, nofun, nofun⟩
theorem witness_KeysUnread : (Instr.ldDtVx 1).readsKeys = false := rfl
theorem witness_StepKeepsInv : MachineInv (start 0x6A7F) ∧ ∃ t, step (start 0x6A7F) = .next t := ⟨start_machineInv _, _, rfl⟩
theorem witness_EveryTransaction : MachineInv (start 0x00EE) := start_machineInv _
theorem witness_Reachable : Reachable (transactAll [.load [0x12, 0x00], .step, .tickTimers] State.reset) := ⟨_, rfl⟩
theorem witness_SelfJump : EndedNormally (start 0x1200) := ⟨0x1200, 0x200, rfl, rfl, rfl⟩
/-- R264: memory after reset is zero from 0x200 on, and 1792 no-ops reach its end. -/
theorem witness_ZeroMemory : (∀ a, State.reset.pc.toNat ≤ a → Memory.read State.reset.mem a = 0) ∧
    State.reset.pc.toNat + 2 * 1792 = 4096 := by
  refine ⟨fun a ha => ?_, rfl⟩
  have : 512 ≤ a := ha
  show memReset a = 0
  rw [memReset, if_neg (by omega)]
  rfl
theorem witness_FairTicks : TickFair (fun _ => .tickTimers) ∧
    ∀ n x, (fun _ => Transaction.tickTimers : Nat → Transaction) n = .step →
      ¬ NextInstr (runSchedule (fun _ => .tickTimers) State.reset n) (.ldDtVx x) :=
  ⟨fun n => ⟨n, Nat.le_refl n, rfl⟩, nofun⟩
theorem witness_ReportedKey : NextInstr (start 0xF50A) (.ldVxK 5) ∧ (3#8).toNat < 16 ∧ (15#8).toNat < 16 :=
  ⟨nextInstr_of_isNext _ _ (by decide), by decide⟩


/-! ### `KEY_EVENTUALLY` (R212) -/

/-- An `FX0A` and the self-jump after it (E8, R115). -/
def waitThenEnd : State := { State.reset with mem := Memory.writeBytes [] 0x200 [0xF5, 0x0A, 0x12, 0x02] }

/-- Steps, with key 3 reported down after the first. -/
def oneKey (n : Nat) : Transaction := if n = 1 then .setKey 3 true else .step

/-- A key reported during the wait is enough: none need come once the wait is over, though the key stays down. -/
theorem test_keyEventually_met : KeyEventually oneKey waitThenEnd := by
  have fixed : ∀ n, runSchedule oneKey waitThenEnd (n + 3) = runSchedule oneKey waitThenEnd 3 := by
    intro n
    induction n with
    | zero => rfl
    | succ n ih =>
      have e : oneKey (n + 3) = .step := if_neg (by omega)
      show (transact (oneKey (n + 3)) (runSchedule oneKey waitThenEnd (n + 3))).2 = _
      rw [e, ih]
      decide
  have down : ∀ n, 2 ≤ n → (runSchedule oneKey waitThenEnd n).keyDown 3 = true := by
    intro n hn
    obtain rfl | h3 : n = 2 ∨ 3 ≤ n := by omega
    · decide
    · obtain ⟨k, rfl⟩ := Nat.exists_eq_add_of_le h3
      rw [Nat.add_comm, fixed]
      decide
  have waits : ∀ j, j ≤ 1 → Waits (runSchedule oneKey waitThenEnd j) := by
    intro j hj
    obtain rfl | rfl : j = 0 ∨ j = 1 := by omega
    · exact ⟨⟨5, nextInstr_of_isNext _ _ (by decide)⟩, by decide⟩
    · exact ⟨⟨5, nextInstr_of_isNext _ _ (by decide)⟩, by decide⟩
  intro n hn
  by_cases h : n ≤ 1
  · exact ⟨1, h, fun j _ hj => waits j hj, Or.inl ⟨3, by decide, rfl⟩⟩
  · have := hn.2 3 (by decide)
    rw [down n (by omega)] at this
    cases this

/-- Steps alone leave the program waiting for ever. -/
theorem test_keyEventually_not_met : ¬ KeyEventually (fun _ => .step) waitThenEnd := by
  intro h
  obtain ⟨m, -, -, ⟨k, -, e⟩ | ⟨e | ⟨rom, e⟩, -⟩⟩ :=
    h 0 ⟨⟨5, nextInstr_of_isNext _ _ (by decide)⟩, by decide⟩ <;> cases e

end Sys2Proof.Tests
end

section
/-! SUPPORT. What a successful step has done: the next state of each instruction that reads the stack, memory or the keys
before it answers. The meaning of every other instruction is one update of the state and always succeeds. -/

namespace Sys2Proof.Machine

/-- A return that succeeds has moved `pc` and `SP` and nothing else (R113). -/
theorem execRet_eq_next {s t : State} (h : execRet s = .next t) :
    s.sp.val ≠ 0 ∧ ∃ target sp, t = { s with pc := target, sp := sp } := by
  unfold execRet at h
  obtain ⟨-, e⟩ | ⟨hsp, e⟩ := s.pop_cases <;> rw [e] at h <;> cases h
  exact ⟨hsp, _, _, rfl⟩

/-- A call that succeeds has moved `pc` and pushed (R116). -/
theorem execCall_eq_next {nnn : Address12} {s t : State} (h : execCall nnn s = .next t) :
    s.sp.val < 16 ∧ ∃ stack sp, t = { s with pc := zextNNN nnn, stack := stack, sp := sp } := by
  unfold execCall at h
  obtain ⟨-, e⟩ | ⟨hsp, e⟩ := s.push_cases s.npc <;> rw [e] at h <;> cases h
  exact ⟨hsp, _, _, rfl⟩

/-- A draw that succeeds has written pixels and VF, and advanced (R181). -/
theorem execDrw_eq_next {x y : Reg} {n : Nibble} {s t : State} (h : execDrw x y n s = .next t) :
    ∃ fb b, t = (State.setFlag { s with fb := fb } b).advance := by
  unfold execDrw at h
  split at h <;> cases h
  exact ⟨_, _, rfl⟩

/-- A key skip that succeeds has a key number below 16 and is a skip on that key's level (R190). -/
theorem execSkp_eq_next {x : Reg} {s t : State} (h : execSkp x s = .next t) :
    (s.reg x).toNat < 16 ∧ t = s.skipIf (s.keyDown (s.reg x).toNat) := by
  unfold execSkp at h
  obtain ⟨-, e⟩ | ⟨hk, e⟩ := keyOperand_cases s x <;> rw [e] at h <;> cases h
  exact ⟨hk, rfl⟩

/-- The same of the skip on a released key (R191). -/
theorem execSknp_eq_next {x : Reg} {s t : State} (h : execSknp x s = .next t) :
    (s.reg x).toNat < 16 ∧ t = s.skipIf (!s.keyDown (s.reg x).toNat) := by
  unfold execSknp at h
  obtain ⟨-, e⟩ | ⟨hk, e⟩ := keyOperand_cases s x <;> rw [e] at h <;> cases h
  exact ⟨hk, rfl⟩

/-- A wait for a key takes the least pressed key, or changes nothing with none pressed (R193). -/
theorem execLdVxK_eq_next {x : Reg} {s t : State} (h : execLdVxK x s = .next t) :
    (∃ k, s.firstKey = some k ∧ t = (s.setReg x (BitVec.ofNat 8 k)).advance) ∨ (s.firstKey = none ∧ t = s) := by
  unfold execLdVxK at h
  split at h <;> cases h
  · exact .inl ⟨_, ‹_›, rfl⟩
  · exact .inr ⟨‹_›, congrArg s.setPc s.npc_sub_two⟩

/-- A step that succeeds has executed the next instruction (R110). -/
theorem nextInstr_of_step_eq_next {s t : State} (h : step s = .next t) : ∃ i, NextInstr s i ∧ exec i s = .next t := by
  obtain ⟨-, e⟩ | ⟨_, _, -, -, e⟩ | ⟨op, i, hf, hd, e⟩ := step_cases s <;> rw [e] at h
  · cases h
  · cases h
  · exact ⟨i, ⟨op, hf, hd⟩, h⟩

end Sys2Proof.Machine
end

section
/-! SUPPORT. The timers (10_state.md R30, R31): their two writers among the instructions, and what the transactions do to
them. -/

namespace Sys2Proof.Machine

/-- Both timers are the same in both states. -/
def TimersKept (s t : State) : Prop := t.dt = s.dt ∧ t.st = s.st

/-- Everything an instruction that succeeds can do to the timers: `FX15` and `FX18` write one each, the others neither. -/
theorem exec_timers_cases {i : Instr} {s t : State} (h : exec i s = .next t) :
    TimersKept s t ∨ (∃ x, i = .ldDtVx x ∧ t = (s.setDt (s.reg x)).advance) ∨
    (∃ x, i = .ldStVx x ∧ t = (s.setSt (s.reg x)).advance) := by
  cases i with
  | ldDtVx x => cases h; exact .inr (.inl ⟨x, rfl, rfl⟩)
  | ldStVx x => cases h; exact .inr (.inr ⟨x, rfl, rfl⟩)
  | ret => obtain ⟨-, _, _, rfl⟩ := execRet_eq_next h; exact .inl ⟨rfl, rfl⟩
  | call nnn => obtain ⟨-, _, _, rfl⟩ := execCall_eq_next h; exact .inl ⟨rfl, rfl⟩
  | drw x y n => obtain ⟨_, _, rfl⟩ := execDrw_eq_next h; exact .inl ⟨rfl, rfl⟩
  | skp x => obtain ⟨-, rfl⟩ := execSkp_eq_next h; exact .inl ⟨rfl, rfl⟩
  | sknp x => obtain ⟨-, rfl⟩ := execSknp_eq_next h; exact .inl ⟨rfl, rfl⟩
  | ldVxK x => obtain ⟨_, -, rfl⟩ | ⟨-, rfl⟩ := execLdVxK_eq_next h <;> exact .inl ⟨rfl, rfl⟩
  | _ => cases h; exact .inl ⟨rfl, rfl⟩

/-- A step that succeeds changes `DT` by `FX15` only and `ST` by `FX18` only, to `V[X]` (R31). -/
theorem step_timers {s t : State} (h : step s = .next t) :
    (t.dt = s.dt ∨ ∃ x, NextInstr s (.ldDtVx x) ∧ t.dt = s.reg x) ∧
    (t.st = s.st ∨ ∃ x, NextInstr s (.ldStVx x) ∧ t.st = s.reg x) := by
  obtain ⟨i, hi, he⟩ := nextInstr_of_step_eq_next h
  obtain ⟨hdt, hst⟩ | ⟨x, rfl, rfl⟩ | ⟨x, rfl, rfl⟩ := exec_timers_cases he
  · exact ⟨.inl hdt, .inl hst⟩
  · exact ⟨.inr ⟨x, hi, rfl⟩, .inl rfl⟩
  · exact ⟨.inl rfl, .inr ⟨x, hi, rfl⟩⟩

/-- `set_key`, `load` and `display`, failing or not, keep the timers. -/
theorem transact_timersKept {r : Transaction} (s : State) (hstep : r ≠ .step) (htick : r ≠ .tickTimers)
    (hreset : r ≠ .reset) : TimersKept s (transact r s).2 := by
  cases r with
  | step => exact absurd rfl hstep
  | tickTimers => exact absurd rfl htick
  | reset => exact absurd rfl hreset
  | display => exact ⟨rfl, rfl⟩
  | setKey index pressed =>
    obtain ⟨-, e⟩ | ⟨-, t, e, ht, -⟩ := setKey_cases index pressed s <;> rw [transact, e]
    · exact ⟨rfl, rfl⟩
    · rw [commit_next, ht]; exact ⟨rfl, rfl⟩
  | load rom => obtain ⟨-, e⟩ | ⟨-, e⟩ := load_cases rom s <;> rw [transact, e] <;> exact ⟨rfl, rfl⟩

/-- Settles O50: each clause is the lemma about its transactions. -/
theorem timersMoveByTicksAndTheirWritersOnly : Obligations.TimersMoveByTicksAndTheirWritersOnly :=
  ⟨fun _ _ h => step_timers h, fun s => ⟨tickDown_toNat s.dt, tickDown_toNat s.st⟩,
    fun _ s hstep htick hreset => transact_timersKept s hstep htick hreset⟩

end Sys2Proof.Machine
end

section
/-! SUPPORT. Control flow (40_flow.md R112 to R120): a meaning that sets `pc` and nothing else, and the next step after a
jump to the last address. -/

namespace Sys2Proof.Machine

/-! ### Moving `pc` -/

theorem Part.same_setPc (s : State) (w : Word) : ∀ p : Part, p.same s (s.setPc w)
  | .memory => fun _ => rfl
  | .stack => ⟨rfl, fun _ => rfl⟩
  | .screen => fun _ _ => rfl
  | .index | .keys | .delay | .sound | .draws => rfl

theorem State.setPc_regsKept (s : State) (w : Word) : RegsKept [] s (s.setPc w) := fun r _ => s.setPc_reg w r

theorem State.setPc_frame (s : State) (w : Word) : Frame [] s (s.setPc w) := fun p _ => Part.same_setPc s w p

/-- A skip on a condition, with `npc` written out (R111). -/
theorem State.skipIf_pc_of_iff (s : State) {c : Bool} {p : Prop} [Decidable p] (h : c = true ↔ p) :
    (s.skipIf c).pc = if p then s.pc + 2 + 2 else s.pc + 2 :=
  if_congr h rfl rfl

theorem zextNNN_toNat (nnn : Address12) : (zextNNN nnn).toNat = nnn.toNat :=
  BitVec.toNat_setWidth_of_le (by decide)

/-- A `pc` with no two bytes of memory left fails the step at its fetch (R53). -/
theorem step_of_pc_ge {s : State} (h : s.pc.toNat ≥ 4095) :
    step s = .fault (.outOfBoundsMemoryAccess (max s.pc.toNat 4096)) := by
  rw [step, (fetch_eq_error_iff s _).2 ⟨h, rfl⟩]
  rfl

/-! ### The words -/

theorem decodeFamily0_eq_nop_iff (op : Word) : decodeFamily0 op = .ok .nop ↔ op = 0x0000 := by
  unfold decodeFamily0
  split_ifs with hnop <;> simp [hnop]

/-- No branch of the decoder outside the first family answers NOP. -/
theorem fieldTop_of_decode_eq_nop {op : Word} (h : decode op = .ok .nop) : fieldTop op = 0x0#4 := by
  by_contra htop
  simp [decode, htop, decodeFamily8, decodeFamilyE, decodeFamilyF, ite_eq_iff] at h

/-- Only the word of zeros is a NOP (R112). -/
theorem decode_eq_nop_iff (op : Word) : decode op = .ok .nop ↔ op = 0x0000 := by
  constructor
  · intro h
    rwa [decode_top0 op (fieldTop_of_decode_eq_nop h), decodeFamily0_eq_nop_iff] at h
  · rintro rfl
    rfl

theorem decode_formatNNN_jp (nnn : Address12) : decode (formatNNN 0x1#4 nnn) = .ok (.jp nnn) := by
  rw [decode_top1 _ (fieldTop_formatNNN _ _), fieldNNN_formatNNN]

theorem decode_formatXNN_seImm (x : Reg) (nn : Byte) : decode (formatXNN 0x3#4 x nn) = .ok (.seImm x nn) := by
  rw [decode_top3 _ (fieldTop_formatXNN _ _ _), fieldX_formatXNN, fieldNN_formatXNN]

theorem decode_formatXNN_sneImm (x : Reg) (nn : Byte) : decode (formatXNN 0x4#4 x nn) = .ok (.sneImm x nn) := by
  rw [decode_top4 _ (fieldTop_formatXNN _ _ _), fieldX_formatXNN, fieldNN_formatXNN]

/-! ### The instructions -/

/-- Settles O7: NOP is the word of zeros, and its meaning sets `pc` to `npc`. -/
theorem nopOnlyAdvances : Obligations.NopOnlyAdvances :=
  ⟨decode_eq_nop_iff, rfl, fun s => ⟨s.advance, rfl, rfl, s.setPc_regsKept _, s.setPc_frame _⟩⟩

/-- Settles O9: the target is `NNN` unchecked, and no word can be fetched at 0xFFF. -/
theorem jpSetsPcToNnn : Obligations.JpSetsPcToNnn := by
  intro nnn s
  refine ⟨decode_formatNNN_jp nnn, s.setPc (zextNNN nnn), rfl, zextNNN_toNat nnn, s.setPc_regsKept _,
    s.setPc_frame _, ?_⟩
  rintro rfl
  exact ⟨_, step_of_pc_ge (zextNNN_toNat 0xFFF).ge⟩

/-- Settles O12: each instruction is a skip, on `V[X] = NN` and on `V[X] ≠ NN`. -/
theorem skipsOnImmediate : Obligations.SkipsOnImmediate := fun x nn s =>
  ⟨decode_formatXNN_seImm x nn, decode_formatXNN_sneImm x nn,
    ⟨_, rfl, s.skipIf_pc_of_iff beq_iff_eq, s.setPc_regsKept _, s.setPc_frame _⟩,
    ⟨_, rfl, s.skipIf_pc_of_iff bne_iff_ne, s.setPc_regsKept _, s.setPc_frame _⟩⟩

end Sys2Proof.Machine
end

section
/-! SUPPORT. Loads, immediate add, logic and shifts (41_alu.md R140 to R151): a meaning that writes V registers and `pc`
only, and the shape the two shifts share. -/

namespace Sys2Proof.Machine

/-! ### Writing registers -/

/-- Whatever becomes of `pc` and the V registers, every other piece of state is as it was. -/
theorem State.frame_with_pc_v (s : State) (w : Word) (v : Vector Byte 16) : Frame [] s { s with pc := w, v := v } :=
  fun p _ => match p with
  | .memory => fun _ => rfl
  | .stack => ⟨rfl, fun _ => rfl⟩
  | .screen => fun _ _ => rfl
  | .index | .keys | .delay | .sound | .draws => rfl

theorem State.setReg_advance_reg_self (s : State) (x : Reg) (b : Byte) : (s.setReg x b).advance.reg x = b := by
  rw [advance_reg, setReg_reg, if_pos rfl]

theorem State.setReg_advance_regsKept (s : State) (x : Reg) (b : Byte) : RegsKept [x] s (s.setReg x b).advance := by
  intro r hr
  rw [advance_reg, setReg_reg, if_neg (List.ne_of_not_mem_cons hr)]

theorem State.setReg_advance_frame (s : State) (x : Reg) (b : Byte) : Frame [] s (s.setReg x b).advance :=
  s.frame_with_pc_v _ _

/-! ### Shifting in place -/

/-- The order of writes of `8XY6` and `8XYE` (R148, R150): VF gets what `out` makes of `V[X]`, then `shift` is applied to
`V[X]` as it is after that. -/
def State.shiftInPlace (s : State) (x : Reg) (out shift : Byte → Byte) : State :=
  let t := s.setFlag (out (s.reg x))
  (t.setReg x (shift (t.reg x))).advance

theorem exec_shr (x y : Reg) (s : State) : exec (.shr x y) s = .next (s.shiftInPlace x lowBitFlag (· >>> 1)) := rfl

theorem exec_shl (x y : Reg) (s : State) : exec (.shl x y) s = .next (s.shiftInPlace x highBitFlag (· <<< 1)) := rfl

theorem State.shiftInPlace_reg_self (s : State) (x : Reg) (out shift : Byte → Byte) :
    (s.shiftInPlace x out shift).reg x = shift (if x = Reg.flag then out (s.reg x) else s.reg x) := by
  rw [shiftInPlace, setReg_advance_reg_self, setFlag_reg]

theorem State.shiftInPlace_reg_flag (s : State) (x : Reg) (out shift : Byte → Byte) :
    (s.shiftInPlace x out shift).reg Reg.flag = if x = Reg.flag then shift (out (s.reg x)) else out (s.reg x) := by
  by_cases hx : x = Reg.flag
  · subst hx
    rw [shiftInPlace_reg_self, if_pos rfl, if_pos rfl]
  · rw [shiftInPlace, advance_reg, setReg_reg, if_neg (Ne.symm hx), setFlag_reg, if_pos rfl, if_neg hx]

/-- `V[X]` and VF after a shift in place depend on `V[X]` before it and on nothing else (R151). -/
theorem State.shiftInPlace_reg_congr {s s' : State} {x : Reg} (out shift : Byte → Byte) (h : s.reg x = s'.reg x) :
    (s.shiftInPlace x out shift).reg x = (s'.shiftInPlace x out shift).reg x ∧
    (s.shiftInPlace x out shift).reg Reg.flag = (s'.shiftInPlace x out shift).reg Reg.flag := by
  simp only [shiftInPlace_reg_self, shiftInPlace_reg_flag, h, and_self]

/-! ### The words -/

theorem decode_formatXNN_ldImm (x : Reg) (nn : Byte) : decode (formatXNN 0x6#4 x nn) = .ok (.ldImm x nn) := by
  rw [decode_top6 _ (fieldTop_formatXNN _ _ _), fieldX_formatXNN, fieldNN_formatXNN]

theorem decode_formatXNN_addImm (x : Reg) (nn : Byte) : decode (formatXNN 0x7#4 x nn) = .ok (.addImm x nn) := by
  rw [decode_top7 _ (fieldTop_formatXNN _ _ _), fieldX_formatXNN, fieldNN_formatXNN]

theorem decode_formatXYN_eight (x y : Reg) (n : Nibble) :
    decode (formatXYN 0x8#4 x y n) = decodeFamily8 (formatXYN 0x8#4 x y n) :=
  decode_top8 _ (fieldTop_formatXYN _ _ _ _)

theorem decode_formatXYN_ldReg (x y : Reg) : decode (formatXYN 0x8#4 x y 0x0#4) = .ok (.ldReg x y) := by
  simp [decode_formatXYN_eight, decodeFamily8]

theorem decode_formatXYN_orReg (x y : Reg) : decode (formatXYN 0x8#4 x y 0x1#4) = .ok (.orReg x y) := by
  simp [decode_formatXYN_eight, decodeFamily8]

theorem decode_formatXYN_andReg (x y : Reg) : decode (formatXYN 0x8#4 x y 0x2#4) = .ok (.andReg x y) := by
  simp [decode_formatXYN_eight, decodeFamily8]

theorem decode_formatXYN_xorReg (x y : Reg) : decode (formatXYN 0x8#4 x y 0x3#4) = .ok (.xorReg x y) := by
  simp [decode_formatXYN_eight, decodeFamily8]

/-! ### The instructions -/

theorem addImm_reg_toNat (x : Reg) (nn : Byte) (s : State) :
    ((s.setReg x (s.reg x + nn)).advance.reg x).toNat = ((s.reg x).toNat + nn.toNat) % 256 := by
  rw [State.setReg_advance_reg_self, BitVec.toNat_add]

/-- A logic instruction that succeeds has written no register but its `X` (R151). -/
theorem logic_regsKept {x y : Reg} {s t : State}
    (h : exec (.orReg x y) s = .next t ∨ exec (.andReg x y) s = .next t ∨ exec (.xorReg x y) s = .next t) :
    RegsKept [x] s t := by
  obtain h | h | h := h <;> cases h <;> exact s.setReg_advance_regsKept x _

/-- Settles O14: each instruction writes `V[X]` and advances, and after `6XNN` the `V[X]` that `7XNN` adds to is `NN`. -/
theorem loadsAndImmediateAdd : Obligations.LoadsAndImmediateAdd := by
  intro x y nn s
  refine ⟨decode_formatXNN_ldImm x nn, decode_formatXNN_addImm x nn, decode_formatXYN_ldReg x y,
    ⟨_, rfl, s.setReg_advance_reg_self x nn, rfl, s.setReg_advance_regsKept x _, s.setReg_advance_frame x _, _, rfl, ?_⟩,
    ⟨_, rfl, addImm_reg_toNat x nn s, rfl, s.setReg_advance_regsKept x _, s.setReg_advance_frame x _⟩,
    ⟨_, rfl, s.setReg_advance_reg_self x _, rfl, s.setReg_advance_regsKept x _, s.setReg_advance_frame x _⟩⟩
  rw [addImm_reg_toNat, State.setReg_advance_reg_self]

/-- Settles O15: each instruction writes the bitwise operation's result to `V[X]` and advances. -/
theorem logicIsBitwise : Obligations.LogicIsBitwise := by
  intro x y s
  refine ⟨decode_formatXYN_orReg x y, decode_formatXYN_andReg x y, decode_formatXYN_xorReg x y,
    ⟨_, rfl, fun j _ => ?_, rfl, s.setReg_advance_regsKept x _, s.setReg_advance_frame x _⟩,
    ⟨_, rfl, fun j _ => ?_, rfl, s.setReg_advance_regsKept x _, s.setReg_advance_frame x _⟩,
    ⟨_, rfl, fun j _ => ?_, rfl, s.setReg_advance_regsKept x _, s.setReg_advance_frame x _⟩⟩
  · rw [State.setReg_advance_reg_self, BitVec.getLsbD_or]
  · rw [State.setReg_advance_reg_self, BitVec.getLsbD_and]
  · rw [State.setReg_advance_reg_self, BitVec.getLsbD_xor]

/-- Settles O16: a logic instruction writes `V[X]` only, and a shift is a shift of `V[X]` in place, whatever `Y` is. -/
theorem logicKeepsFlagAndShiftsIgnoreY : Obligations.LogicKeepsFlagAndShiftsIgnoreY := by
  refine ⟨fun x y s t hx h => logic_regsKept h _ (mt List.mem_singleton.1 hx.symm), fun _ _ _ _ => ⟨rfl, rfl⟩, ?_⟩
  rintro x y s s' t t' hreg (⟨h, h'⟩ | ⟨h, h'⟩)
  · rw [exec_shr] at h h'
    cases h; cases h'
    exact State.shiftInPlace_reg_congr lowBitFlag (· >>> 1) hreg
  · rw [exec_shl] at h h'
    cases h; cases h'
    exact State.shiftInPlace_reg_congr highBitFlag (· <<< 1) hreg

end Sys2Proof.Machine
end

section
/-! SUPPORT. The index register (42_index_random.md R170): a meaning that writes `I` and `pc` only. -/

namespace Sys2Proof.Machine

/-! ### Writing `I` -/

/-- Whatever `I` and `pc` become, every other piece of state is as it was. -/
theorem State.setI_advance_frame (s : State) (w : Word) : Frame [.index] s (s.setI w).advance :=
  fun p hp => match p with
  | .index => absurd (List.mem_singleton_self _) hp
  | .memory => fun _ => rfl
  | .stack => ⟨rfl, fun _ => rfl⟩
  | .screen => fun _ _ => rfl
  | .keys | .delay | .sound | .draws => rfl

theorem State.setI_advance_regsKept (s : State) (w : Word) : RegsKept [] s (s.setI w).advance := by
  intro r _
  rw [advance_reg, setI_reg]

/-! ### The word -/

theorem decode_formatNNN_ldI (nnn : Address12) : decode (formatNNN 0xA#4 nnn) = .ok (.ldI nnn) := by
  rw [decode_topA _ (fieldTop_formatNNN _ _), fieldNNN_formatNNN]

/-! ### The instruction -/

/-- Settles O23: `I` gets `NNN` zero-extended, which keeps its value, and `pc` gets `npc`. -/
theorem ldISetsIndex : Obligations.LdISetsIndex := fun nnn s =>
  ⟨decode_formatNNN_ldI nnn, (s.setI (zextNNN nnn)).advance, rfl, zextNNN_toNat nnn, rfl,
    s.setI_advance_regsKept _, s.setI_advance_frame _⟩

end Sys2Proof.Machine
end

section
/-! SUPPORT. The screen (43_display.md R180): a meaning that writes pixels, V registers and `pc` only. -/

namespace Sys2Proof.Machine

/-- Whatever becomes of `pc`, the V registers and the pixels, every other piece of state is as it was. -/
theorem State.frame_with_pc_v_fb (s : State) (w : Word) (v : Vector Byte 16) (fb : Framebuffer) :
    Frame [.screen] s { s with pc := w, v := v, fb := fb } :=
  fun p hp => match p with
  | .screen => absurd (List.mem_singleton_self _) hp
  | .memory => fun _ => rfl
  | .stack => ⟨rfl, fun _ => rfl⟩
  | .index | .keys | .delay | .sound | .draws => rfl

theorem State.setFb_advance_regsKept (s : State) (fb : Framebuffer) :
    RegsKept [] s { s with fb := fb }.advance :=
  fun r _ => State.advance_reg { s with fb := fb } r

/-- A framebuffer with every pixel unlit is the one that `00E0` writes. -/
theorem eq_clearScreen_of_unlit {fb : Framebuffer} (h : ∀ x < 64, ∀ y < 32, pix fb x y = false) : fb = clearScreen :=
  Framebuffer.ext_pix fb clearScreen fun x hx y hy => (h x hx y hy).trans (pix_clearScreen x y).symm

/-- Settles O26: CLS writes the clear screen and sets `pc` to `npc`, and a clear framebuffer is the clear screen. -/
theorem clsClearsEveryPixel : Obligations.ClsClearsEveryPixel :=
  ⟨rfl, fun s => ⟨{ s with fb := clearScreen }.advance, rfl, pix_clearScreen,
    fun h => (eq_clearScreen_of_unlit h).symm, rfl, s.setFb_advance_regsKept clearScreen,
    s.frame_with_pc_v_fb s.npc s.v clearScreen⟩⟩

end Sys2Proof.Machine
end

section
/-! SUPPORT. The keypad wait and the timer instructions (44_keypad_timers.md R193 to R196): a meaning that writes one
timer and `pc` only, counting ticks, and instructions run with another value in `ST`. -/

namespace Sys2Proof.Machine

/-! ### Writing a timer -/

/-- Whatever `DT` and `pc` become, every other piece of state is as it was. -/
theorem State.setDt_advance_frame (s : State) (b : Byte) : Frame [.delay] s (s.setDt b).advance :=
  fun p hp => match p with
  | .delay => absurd (List.mem_singleton_self _) hp
  | .memory => fun _ => rfl
  | .stack => ⟨rfl, fun _ => rfl⟩
  | .screen => fun _ _ => rfl
  | .index | .keys | .sound | .draws => rfl

theorem State.setDt_advance_regsKept (s : State) (b : Byte) : RegsKept [] s (s.setDt b).advance := by
  intro r _
  rw [advance_reg, setDt_reg]

/-- Whatever `ST` and `pc` become, every other piece of state is as it was. -/
theorem State.setSt_advance_frame (s : State) (b : Byte) : Frame [.sound] s (s.setSt b).advance :=
  fun p hp => match p with
  | .sound => absurd (List.mem_singleton_self _) hp
  | .memory => fun _ => rfl
  | .stack => ⟨rfl, fun _ => rfl⟩
  | .screen => fun _ _ => rfl
  | .index | .keys | .delay | .draws => rfl

theorem State.setSt_advance_regsKept (s : State) (b : Byte) : RegsKept [] s (s.setSt b).advance := by
  intro r _
  rw [advance_reg, setSt_reg]

/-! ### Counting ticks -/

/-- Every tick takes 1 from a delay timer above 0 (R205). -/
theorem transactAll_replicate_tickTimers_dt (n : Nat) (s : State) :
    (transactAll (List.replicate n .tickTimers) s).dt.toNat = s.dt.toNat - n := by
  induction n generalizing s with
  | zero => rfl
  | succ n ih =>
    calc (transactAll (List.replicate n .tickTimers) (tickTimers s)).dt.toNat
        = (tickDown s.dt).toNat - n := ih (tickTimers s)
      _ = s.dt.toNat - (n + 1) := by rw [tickDown_toNat, Nat.sub_sub, Nat.add_comm]

theorem transactAll_replicate_tickTimers_dt_eq_zero {n : Nat} {s : State} (h : s.dt.toNat ≤ n) :
    (transactAll (List.replicate n .tickTimers) s).dt = 0 :=
  BitVec.eq_of_toNat_eq ((transactAll_replicate_tickTimers_dt n s).trans (Nat.sub_eq_zero_of_le h))

/-! ### The words -/

theorem decode_formatXNN_fifteen (x : Reg) (nn : Byte) :
    decode (formatXNN 0xF#4 x nn) = decodeFamilyF (formatXNN 0xF#4 x nn) :=
  decode_topF _ (fieldTop_formatXNN _ _ _)

theorem decode_formatXNN_ldVxDt (x : Reg) : decode (formatXNN 0xF#4 x 0x07#8) = .ok (.ldVxDt x) := by
  simp [decode_formatXNN_fifteen, decodeFamilyF]

theorem decode_formatXNN_ldVxK (x : Reg) : decode (formatXNN 0xF#4 x 0x0A#8) = .ok (.ldVxK x) := by
  simp [decode_formatXNN_fifteen, decodeFamilyF]

theorem decode_formatXNN_ldDtVx (x : Reg) : decode (formatXNN 0xF#4 x 0x15#8) = .ok (.ldDtVx x) := by
  simp [decode_formatXNN_fifteen, decodeFamilyF]

theorem decode_formatXNN_ldStVx (x : Reg) : decode (formatXNN 0xF#4 x 0x18#8) = .ok (.ldStVx x) := by
  simp [decode_formatXNN_fifteen, decodeFamilyF]

/-! ### Another value in `ST`

The operations an instruction can fail or branch on give the same answer in `s` and in `s.setSt b`. For the key number,
the least pressed key and the bounds of a sprite this holds by definition; the stack operations also answer a state. -/

theorem State.npc_setSt (s : State) (b : Byte) : (s.setSt b).npc = s.npc := rfl

theorem State.pop_setSt (s : State) (b : Byte) : (s.setSt b).pop = s.pop.map (Prod.map id (·.setSt b)) := by
  obtain ⟨hsp, e⟩ | ⟨hsp, e⟩ := s.pop_cases <;> rw [e]
  · exact if_pos hsp
  · exact if_neg hsp

theorem State.push_setSt (s : State) (b : Byte) (w : Word) : (s.setSt b).push w = (s.push w).map (·.setSt b) := by
  obtain ⟨hsp, e⟩ | ⟨hsp, e⟩ := s.push_cases w <;> rw [e]
  · exact dif_neg (not_lt_of_ge hsp.ge)
  · exact dif_pos hsp

theorem execRet_setSt (s : State) (b : Byte) : execRet (s.setSt b) = mapNext (·.setSt b) (execRet s) := by
  rw [execRet, State.pop_setSt, execRet]
  cases s.pop <;> rfl

theorem execCall_setSt (nnn : Address12) (s : State) (b : Byte) :
    execCall nnn (s.setSt b) = mapNext (·.setSt b) (execCall nnn s) := by
  rw [execCall, State.npc_setSt, State.push_setSt, execCall]
  cases s.push s.npc <;> rfl

theorem execDrw_setSt (x y : Reg) (n : Nibble) (s : State) (b : Byte) :
    execDrw x y n (s.setSt b) = mapNext (·.setSt b) (execDrw x y n s) := by
  unfold execDrw
  rw [State.setSt_i]
  cases boundsFailure s.i.toNat (rowCount n) <;> rfl

theorem keyOperand_setSt (s : State) (b : Byte) (x : Reg) : keyOperand (s.setSt b) x = keyOperand s x := rfl

theorem execSkp_setSt (x : Reg) (s : State) (b : Byte) :
    execSkp x (s.setSt b) = mapNext (·.setSt b) (execSkp x s) := by
  rw [execSkp, keyOperand_setSt, execSkp]
  cases keyOperand s x <;> rfl

theorem execSknp_setSt (x : Reg) (s : State) (b : Byte) :
    execSknp x (s.setSt b) = mapNext (·.setSt b) (execSknp x s) := by
  rw [execSknp, keyOperand_setSt, execSknp]
  cases keyOperand s x <;> rfl

theorem State.firstKey_setSt (s : State) (b : Byte) : (s.setSt b).firstKey = s.firstKey := rfl

theorem execLdVxK_setSt (x : Reg) (s : State) (b : Byte) :
    execLdVxK x (s.setSt b) = mapNext (·.setSt b) (execLdVxK x s) := by
  rw [execLdVxK, State.firstKey_setSt, execLdVxK]
  cases s.firstKey <;> rfl

/-- Every instruction but `FX18` neither reads `ST` nor writes it (R196). The meanings left to the last case always
succeed, with one update of the state. -/
theorem exec_setSt {i : Instr} (hi : ∀ x, i ≠ .ldStVx x) (s : State) (b : Byte) :
    exec i (s.setSt b) = mapNext (·.setSt b) (exec i s) := by
  cases i with
  | ldStVx x => exact absurd rfl (hi x)
  | ret => exact execRet_setSt s b
  | call nnn => exact execCall_setSt nnn s b
  | drw x y n => exact execDrw_setSt x y n s b
  | skp x => exact execSkp_setSt x s b
  | sknp x => exact execSknp_setSt x s b
  | ldVxK x => exact execLdVxK_setSt x s b
  | _ => rfl

/-! ### The instructions -/

/-- The response of a step whose instruction succeeds is plain `ok` (R209). -/
theorem transact_step_of_exec_eq_next {s t : State} {i : Instr} (hi : NextInstr s i) (h : exec i s = .next t) :
    transact .step s = (.ok, t) := by
  rw [transact, step_of_nextInstr s i hi, h, commit_next]

/-- With a key pressed, `FX0A` takes the least (R193). -/
theorem exec_ldVxK_of_firstKey {x : Reg} {s : State} {k : Nat} (h : s.firstKey = some k) :
    exec (.ldVxK x) s = .next (s.setReg x (BitVec.ofNat 8 k)).advance := by
  rw [exec, execLdVxK, h]

/-- With no key pressed, `FX0A` sets `pc` to its own address (R193). -/
theorem exec_ldVxK_of_no_key {x : Reg} {s : State} (h : s.firstKey = none) : exec (.ldVxK x) s = .next s := by
  rw [exec, execLdVxK, h]
  exact congrArg Host.Outcome.next (congrArg s.setPc s.npc_sub_two)

/-- Settles O33: `FX18` puts `V[X]` into `ST` whatever was there, and every other instruction commutes with a write of
`ST`. -/
theorem soundTimerIsWrittenAndNeverRead : Obligations.SoundTimerIsWrittenAndNeverRead := by
  refine ⟨fun x s => ⟨decode_formatXNN_ldStVx x, ?_, fun hi => ?_⟩, fun i s b hi => exec_setSt hi s b,
    fun _ _ _ => rfl⟩
  · exact ⟨(s.setSt (s.reg x)).advance, rfl, rfl, rfl, s.setSt_advance_regsKept _, s.setSt_advance_frame _⟩
  · exact congrArg Prod.fst (transact_step_of_exec_eq_next hi rfl)

/-- Settles O31: the found key fits a byte, and with none found `pc` is set to what it was. -/
theorem waitForKeyTakesTheLeastPressed : Obligations.WaitForKeyTakesTheLeastPressed := by
  refine ⟨decode_formatXNN_ldVxK, fun x s k hk hdown hleast => ?_,
    fun x s hnone => exec_ldVxK_of_no_key (s.firstKey_eq_none_iff.2 hnone)⟩
  have hfirst : s.firstKey = some k := (s.firstKey_eq_some_iff k).2 ⟨hk, hdown, hleast⟩
  refine ⟨_, exec_ldVxK_of_firstKey hfirst, ?_, rfl, s.setReg_advance_regsKept x _, s.setReg_advance_frame x _⟩
  rw [State.setReg_advance_reg_self, BitVec.toNat_ofNat, Nat.mod_eq_of_lt (by omega)]

/-- Settles O32: one instruction writes `V[X]`, the other `DT`, and five ticks or more take 5 down to 0. -/
theorem delayTimerMoves : Obligations.DelayTimerMoves := by
  refine fun x s => ⟨decode_formatXNN_ldVxDt x, decode_formatXNN_ldDtVx x,
    ⟨_, rfl, s.setReg_advance_reg_self x _, rfl, s.setReg_advance_regsKept x _, s.setReg_advance_frame x _⟩,
    ⟨(s.setDt (s.reg x)).advance, rfl, rfl, rfl, s.setDt_advance_regsKept _, s.setDt_advance_frame _, fun hfive => ?_⟩⟩
  have hdt : (s.setDt (s.reg x)).advance.dt.toNat = 5 := congrArg BitVec.toNat hfive
  exact ⟨transactAll_replicate_tickTimers_dt_eq_zero hdt.le,
    transactAll_replicate_tickTimers_dt_eq_zero (hdt.le.trans (Nat.le_succ 5))⟩

end Sys2Proof.Machine
end

section
/-! SUPPORT. Ticking and displaying (45_host_operations.md R205, R208): a transaction that writes the timers only, and the
numbering of the pixels on the display port. -/

namespace Sys2Proof.Machine

/-! ### The tick -/

/-- `sound_stop` is `ST = 1`, read as a number (R205). -/
theorem soundStop_eq_decide_toNat (s : State) : soundStop s = decide (s.st.toNat = 1) :=
  decide_eq_decide.2 (BitVec.toNat_inj (x := s.st) (y := 1)).symm

theorem tickTimers_regsKept (s : State) : RegsKept [] s (tickTimers s) := fun _ _ => rfl

/-- Whatever the timers become, every other piece of state is as it was. -/
theorem tickTimers_frame (s : State) : Frame [.delay, .sound] s (tickTimers s) :=
  fun p hp => match p with
  | .delay => absurd List.mem_cons_self hp
  | .sound => absurd (List.mem_cons_of_mem _ (List.mem_singleton_self _)) hp
  | .memory => fun _ => rfl
  | .stack => ⟨rfl, fun _ => rfl⟩
  | .screen => fun _ _ => rfl
  | .index | .keys | .draws => rfl

/-- Settles O34: a tick takes 1 from each timer, stopping at 0, and writes nothing else. -/
theorem tickDecrementsBothTimers : Obligations.TickDecrementsBothTimers := fun s =>
  ⟨tickTimers s, congrArg (fun b => (Response.ticked b, tickTimers s)) (soundStop_eq_decide_toNat s),
    tickDown_toNat s.dt, tickDown_toNat s.st, rfl, tickTimers_regsKept s, tickTimers_frame s⟩

/-! ### The display port -/

/-- Pixel number `x + 64*y` of the port is the one of column `x` and row `y` (R28, R208). -/
theorem displayBit_add_mul (s : State) {x : Nat} (y : Nat) (hx : x < 64) :
    displayBit s (x + 64 * y) = pix s.fb x y := by
  have hcolumn : (x + 64 * y) % 64 = x := by rw [Nat.add_mul_mod_self_left, Nat.mod_eq_of_lt hx]
  have hrow : (x + 64 * y) / 64 = y := by rw [Nat.add_mul_div_left x y (by decide), Nat.div_eq_of_lt hx, Nat.zero_add]
  rw [displayBit, hcolumn, hrow]

/-- Settles O40: the port gives the framebuffer as it is, numbered by rows of 64. -/
theorem displayShowsThePixels : Obligations.DisplayShowsThePixels := fun s =>
  ⟨rfl, fun _ hx y _ => displayBit_add_mul s y hx⟩

end Sys2Proof.Machine
end

section
/-! SUPPORT. The failures of an instruction (60_exceptions.md R220 to R225): which instruction fails in which state, and a
run of calls from an empty stack. -/

namespace Sys2Proof.Machine

/-! ### What an instruction can fail with -/

/-- The failures of R221, R222, R224 and R225 that an instruction itself raises, each with its cause. -/
inductive ExecFails (s : State) : Instr → Fault → Prop
  | ret (hsp : s.sp.val = 0) : ExecFails s .ret .stackUnderflow
  | call (nnn : Address12) (hsp : s.sp.val = 16) : ExecFails s (.call nnn) .stackOverflow
  | drw (x y : Reg) (n : Nibble) (hn : 1 ≤ rowCount n) (hi : s.i.toNat + rowCount n > 4096) :
    ExecFails s (.drw x y n) (.outOfBoundsMemoryAccess (max s.i.toNat 4096))
  | skp (x : Reg) (hk : (s.reg x).toNat ≥ 16) : ExecFails s (.skp x) (.invalidKeyIndex (s.reg x).toNat)
  | sknp (x : Reg) (hk : (s.reg x).toNat ≥ 16) : ExecFails s (.sknp x) (.invalidKeyIndex (s.reg x).toNat)

/-- The meanings left to the last case always succeed. -/
theorem execFails_of_exec_eq_fault {i : Instr} {s : State} {f : Fault} (h : exec i s = .fault f) : ExecFails s i f := by
  cases i with
  | ret =>
    obtain ⟨hsp, e⟩ | ⟨-, e⟩ := s.pop_cases <;> rw [exec, execRet, e] at h <;> cases h
    exact .ret hsp
  | call nnn =>
    obtain ⟨hsp, e⟩ | ⟨_, e⟩ := s.push_cases s.npc <;> rw [exec, execCall, e] at h <;> cases h
    exact .call nnn hsp
  | drw x y n =>
    cases e : boundsFailure s.i.toNat (rowCount n) <;> rw [exec, execDrw, e] at h <;> cases h
    obtain ⟨hn, hi, rfl⟩ := (boundsFailure_eq_some_iff _ _ _).1 e
    exact .drw x y n hn hi
  | skp x =>
    obtain ⟨hk, e⟩ | ⟨-, e⟩ := keyOperand_cases s x <;> rw [exec, execSkp, e] at h <;> cases h
    exact .skp x hk
  | sknp x =>
    obtain ⟨hk, e⟩ | ⟨-, e⟩ := keyOperand_cases s x <;> rw [exec, execSknp, e] at h <;> cases h
    exact .sknp x hk
  | ldVxK x => cases e : s.firstKey <;> rw [exec, execLdVxK, e] at h <;> cases h
  | _ => cases h

theorem exec_eq_fault_of_execFails {i : Instr} {s : State} {f : Fault} (h : ExecFails s i f) : exec i s = .fault f := by
  cases h with
  | ret hsp => rw [exec, execRet, State.pop, if_pos hsp]; rfl
  | call nnn hsp => rw [exec, execCall, State.push, dif_neg (not_lt_of_ge hsp.ge)]; rfl
  | drw x y n hn hi => rw [exec, execDrw, (boundsFailure_eq_some_iff _ _ _).2 ⟨hn, hi, rfl⟩]; rfl
  | skp x hk => rw [exec, execSkp, keyOperand, if_pos hk]; rfl
  | sknp x hk => rw [exec, execSknp, keyOperand, if_pos hk]; rfl

theorem exec_eq_fault_iff {i : Instr} {s : State} {f : Fault} : exec i s = .fault f ↔ ExecFails s i f :=
  ⟨execFails_of_exec_eq_fault, exec_eq_fault_of_execFails⟩

/-! ### The stack -/

theorem exec_eq_stackOverflow_iff (i : Instr) (s : State) :
    exec i s = .fault .stackOverflow ↔ (∃ nnn, i = .call nnn) ∧ s.sp.val = 16 := by
  rw [exec_eq_fault_iff]
  constructor
  · rintro ⟨⟩
    exact ⟨⟨_, rfl⟩, ‹_›⟩
  · rintro ⟨⟨nnn, rfl⟩, hsp⟩
    exact .call nnn hsp

theorem exec_eq_stackUnderflow_iff (i : Instr) (s : State) :
    exec i s = .fault .stackUnderflow ↔ i = .ret ∧ s.sp.val = 0 := by
  rw [exec_eq_fault_iff]
  constructor
  · rintro ⟨⟩
    exact ⟨rfl, ‹_›⟩
  · rintro ⟨rfl, hsp⟩
    exact .ret hsp

/-- Settles O47: the failures of an instruction, with their causes, name this one for a RET with `SP = 0` only. -/
theorem stackUnderflowOnlyByRetWhenEmpty : Obligations.StackUnderflowOnlyByRetWhenEmpty := exec_eq_stackUnderflow_iff

/-- A step that overflows the stack leaves `SP` at 16: its instruction failed, the fetch and the decoder cannot (R221). -/
theorem sp_of_step_eq_stackOverflow {s : State} (h : step s = .fault .stackOverflow) : s.sp.val = 16 := by
  obtain ⟨-, e⟩ | ⟨_, _, -, -, e⟩ | ⟨_, i, -, -, e⟩ := step_cases s <;> rw [e] at h
  · cases h
  · cases h
  · exact ((exec_eq_stackOverflow_iff i s).1 h).2

theorem exec_call_of_sp_lt (nnn : Address12) {s : State} (h : s.sp.val < 16) :
    ∃ t, exec (.call nnn) s = .next t ∧ t.sp.val = s.sp.val + 1 := by
  rw [exec, execCall, State.push, dif_pos h]
  exact ⟨_, rfl, rfl⟩

/-- The first `n` steps of the run from `s` execute calls, as far as the run gets. -/
def CallsFor (n : Nat) (s : State) : Prop :=
  ∀ k < n, ∀ t, runSteps k s = .next t → ∃ nnn, NextInstr t (.call nnn)

/-- From an empty stack, 16 calls in a row and fewer all succeed, and `SP` counts them. -/
theorem runSteps_calls {s : State} (hsp : s.sp.val = 0) :
    ∀ n ≤ 16, CallsFor n s → ∃ t, runSteps n s = .next t ∧ t.sp.val = n
  | 0, _, _ => ⟨s, rfl, hsp⟩
  | n + 1, hn, hcalls => by
    obtain ⟨t, ht, htsp⟩ := runSteps_calls hsp n (by omega) fun k hk => hcalls k (by omega)
    obtain ⟨nnn, hnext⟩ := hcalls n n.lt_succ_self t ht
    obtain ⟨u, hu, husp⟩ := exec_call_of_sp_lt nnn (s := t) (by omega)
    refine ⟨u, ?_, by omega⟩
    rw [runSteps_succ_last, ht]
    exact (step_of_nextInstr t _ hnext).trans hu

theorem runSteps_calls_seventeen {s : State} (hsp : s.sp.val = 0) (hcalls : CallsFor 17 s) :
    runSteps 17 s = .fault .stackOverflow := by
  obtain ⟨t, ht, htsp⟩ := runSteps_calls hsp 16 le_rfl fun k hk => hcalls k (by omega)
  obtain ⟨nnn, hnext⟩ := hcalls 16 (by decide) t ht
  rw [runSteps_succ_last, ht]
  exact (step_of_nextInstr t _ hnext).trans ((exec_eq_stackOverflow_iff _ t).2 ⟨⟨nnn, rfl⟩, htsp⟩)

/-- Settles O46: the causes of an instruction's failure; a failing step changes nothing; and the 17th call meets `SP = 16`,
the number of calls before it. -/
theorem stackOverflowOnlyByCallWhenFull : Obligations.StackOverflowOnlyByCallWhenFull := by
  refine ⟨exec_eq_stackOverflow_iff, fun s h => ?_,
    fun n s hsp hcalls => ⟨fun hn => runSteps_calls hsp n hn hcalls, ?_⟩⟩
  · rw [transact, h, commit_fault]
    exact sp_of_step_eq_stackOverflow h
  · rintro rfl
    exact runSteps_calls_seventeen hsp hcalls

end Sys2Proof.Machine
end

section
/-! SUPPORT. Invalid opcodes (30_encoding.md R84, R85, 60_exceptions.md R223): a row's mask and pattern as conditions on the
fields of the word, and the words the decoder refuses. -/

namespace Sys2Proof.Machine

open Sys2Proof.Laws.Encoding

/-! ### Masks and fields -/

theorem fieldTop_and (op m : Word) (hm : fieldTop m = 0xF#4) : fieldTop (op &&& m) = fieldTop op := by
  rw [fieldTop, BitVec.extractLsb'_and]
  exact (congrArg (fieldTop op &&& ·) hm).trans BitVec.and_allOnes

theorem fieldN_and (op m : Word) (hm : fieldN m = 0xF#4) : fieldN (op &&& m) = fieldN op := by
  rw [fieldN, BitVec.extractLsb'_and]
  exact (congrArg (fieldN op &&& ·) hm).trans BitVec.and_allOnes

theorem fieldNN_and (op m : Word) (hm : fieldNN m = 0xFF#8) : fieldNN (op &&& m) = fieldNN op := by
  rw [fieldNN, BitVec.extractLsb'_and]
  exact (congrArg (fieldNN op &&& ·) hm).trans BitVec.and_allOnes

/-- A pattern with no digit but the first fixes the top nibble. -/
theorem and_F000_eq_iff {op p : Word} (hp : p &&& 0xF000#16 = p) :
    op &&& 0xF000#16 = p ↔ fieldTop op = fieldTop p := by
  refine ⟨fun h => h ▸ (fieldTop_and op _ rfl).symm, fun h => ?_⟩
  rw [← formatNNN_fields op, h, formatNNN_family, ← formatNNN_family _ (fieldNNN p), formatNNN_fields, hp]

/-- A pattern with digits at both ends fixes the top and the bottom nibble. -/
theorem and_F00F_eq_iff {op p : Word} (hp : p &&& 0xF00F#16 = p) :
    op &&& 0xF00F#16 = p ↔ fieldTop op = fieldTop p ∧ fieldN op = fieldN p := by
  refine ⟨fun h => h ▸ ⟨(fieldTop_and op _ rfl).symm, (fieldN_and op _ rfl).symm⟩, fun ⟨ht, hn⟩ => ?_⟩
  rw [← formatXYN_fields op, ht, hn, formatXYN_nibble, ← formatXYN_nibble _ (fieldX p) (fieldY p), formatXYN_fields, hp]

/-- A pattern with every digit but `X` fixes the top nibble and the bottom byte. -/
theorem and_F0FF_eq_iff {op p : Word} (hp : p &&& 0xF0FF#16 = p) :
    op &&& 0xF0FF#16 = p ↔ fieldTop op = fieldTop p ∧ fieldNN op = fieldNN p := by
  refine ⟨fun h => h ▸ ⟨(fieldTop_and op _ rfl).symm, (fieldNN_and op _ rfl).symm⟩, fun ⟨ht, hn⟩ => ?_⟩
  rw [← formatXNN_fields op, ht, hn, formatXNN_byte, ← formatXNN_byte _ (fieldX p), formatXNN_fields, hp]

/-- A pattern with every digit fixes the word, its top nibble with it. -/
theorem and_FFFF_eq_iff (op p : Word) : op &&& 0xFFFF#16 = p ↔ fieldTop op = fieldTop p ∧ op = p := by
  rw [show op &&& 0xFFFF#16 = op from BitVec.and_allOnes]
  exact ⟨fun h => ⟨congrArg fieldTop h, h⟩, And.right⟩

/-! The fields of a literal word, in the form in which `simp` computes them. -/

theorem fieldTop_ofNat (n : Nat) : fieldTop (BitVec.ofNat 16 n) = (BitVec.ofNat 16 n).extractLsb' 12 4 := rfl
theorem fieldN_ofNat (n : Nat) : fieldN (BitVec.ofNat 16 n) = (BitVec.ofNat 16 n).extractLsb' 0 4 := rfl
theorem fieldNN_ofNat (n : Nat) : fieldNN (BitVec.ofNat 16 n) = (BitVec.ofNat 16 n).extractLsb' 0 8 := rfl

/-! ### The refused words -/

theorem exists_ite_ok_eq_error_iff {ε α : Type} {c : Prop} [Decidable c] {a : α} {x : Except ε α} :
    (∃ e, (if c then .ok a else x) = .error e) ↔ ¬ c ∧ ∃ e, x = .error e := by
  split <;> simp [*]

/-- The decoder refuses the words of no row: under each top nibble, the keys it looks for (R84) are the patterns of the
rows with that top nibble (R85). -/
theorem exists_decode_eq_error_iff (op : Word) :
    (∃ e, decode op = .error e) ↔ ∀ r ∈ opcodeRows, op &&& r.mask ≠ r.pattern := by
  simp only [opcodeRows, opcodeRowsA, opcodeRowsB, opcodeRowsC, List.cons_append, List.nil_append, List.forall_mem_cons,
    BitVec.ofNat_eq_ofNat, ne_eq, and_F000_eq_iff, and_F00F_eq_iff, and_F0FF_eq_iff, and_FFFF_eq_iff, BitVec.reduceAnd,
    fieldTop_ofNat, fieldN_ofNat, fieldNN_ofNat, BitVec.reduceExtractLsb']
  obtain h | h | h | h | h | h | h | h | h | h | h | h | h | h | h | h := Nibble.cases (fieldTop op) <;>
    simp [decode, decodeFamily0, decodeFamily8, decodeFamilyE, decodeFamilyF, exists_ite_ok_eq_error_iff, h]

/-- A step raises this failure at the decoder only: no instruction raises it (R223). -/
theorem step_eq_invalidOpcode_iff (s : State) (op : Word) :
    step s = .fault (.invalidOpcode op) ↔ fetch s = .ok op ∧ ∃ e, decode op = .error e := by
  constructor
  · intro h
    obtain ⟨-, e⟩ | ⟨_, err, hf, hd, e⟩ | ⟨_, i, -, -, e⟩ := step_cases s <;> rw [e] at h
    · cases h
    · cases h
      exact ⟨hf, err, hd⟩
    · cases execFails_of_exec_eq_fault h
  · rintro ⟨hf, e, hd⟩
    simp [step, hf, hd, raise]

theorem fetch_eq_ok_iff_toNat (s : State) (op : Word) :
    fetch s = .ok op ↔ s.pc.toNat ≤ 4094 ∧
      op.toNat = (Memory.read s.mem s.pc.toNat).toNat * 256 + (Memory.read s.mem (s.pc.toNat + 1)).toNat := by
  rw [fetch_eq_ok_iff, ← joinBytes_toNat, BitVec.toNat_inj]

/-- Settles O6: only the decoder raises this failure, and it refuses the words of no row. -/
theorem invalidOpcodeExactlyForUnmatchedWords : Obligations.InvalidOpcodeExactlyForUnmatchedWords := by
  intro s op
  rw [step_eq_invalidOpcode_iff, fetch_eq_ok_iff_toNat, exists_decode_eq_error_iff, and_assoc]

end Sys2Proof.Machine
end

section
/-! SUPPORT. Encoding and decoding as inverses (30_encoding.md R86), the dispatch as the lookup in the opcode table (R84,
R85), and the illegal words as numbers (R89). -/

namespace Sys2Proof.Machine

/-! ### Decoding an encoded word -/

theorem decode_encode (i : Instr) : decode (encode i) = .ok i := by
  cases i with
  | nop | cls | ret => rfl
  | jp nnn | call nnn | ldI nnn | jpV0 nnn => simp [encode, decode]
  | seImm x nn | sneImm x nn | ldImm x nn | addImm x nn | rnd x nn => simp [encode, decode]
  | seReg x y | sneReg x y => simp [encode, decode]
  | drw x y n => simp [encode, decode]
  | ldReg x y | orReg x y | andReg x y | xorReg x y | addReg x y | subReg x y | shr x y | subn x y | shl x y =>
    simp [encode, decode_formatXYN_eight, decodeFamily8]
  | skp x | sknp x => simp [encode, decode, decodeFamilyE]
  | ldVxDt x | ldVxK x | ldDtVx x | ldStVx x | addI x => simp [encode, decode_formatXNN_fifteen, decodeFamilyF]

/-- Settles O2: each field of the encoded word is the operand put there, and the keys are those the decoder looks for. -/
theorem decodeOfEncodeIsTheInstruction : Obligations.DecodeOfEncodeIsTheInstruction := decode_encode

/-- Settles O1: each of the words is the word of its instruction. -/
theorem sampleWordsDecode : Obligations.SampleWordsDecode :=
  ⟨decode_encode .nop, decode_encode .ret, decode_encode (.jp 0xABC), decode_encode (.seImm 10 0x42),
    decode_encode (.seReg 1 2), decode_encode (.addReg 1 2), decode_encode (.shl 3 3), decode_encode (.rnd 1 0x0F),
    decode_encode (.drw 0 1 5), decode_encode (.skp 1), decode_encode (.ldVxK 2), decode_encode (.addI 1)⟩

/-! ### Encoding a decoded word -/

theorem formatNNN_eq {op : Word} {top : Nibble} (ht : fieldTop op = top) : formatNNN top (fieldNNN op) = op :=
  ht ▸ formatNNN_fields op

theorem formatXNN_eq {op : Word} {top : Nibble} (ht : fieldTop op = top) :
    formatXNN top (fieldX op) (fieldNN op) = op :=
  ht ▸ formatXNN_fields op

theorem formatXNN_eq_of_key {op : Word} {top : Nibble} {key : Byte} (ht : fieldTop op = top) (hk : fieldNN op = key) :
    formatXNN top (fieldX op) key = op :=
  hk ▸ formatXNN_eq ht

theorem formatXYN_eq {op : Word} {top : Nibble} (ht : fieldTop op = top) :
    formatXYN top (fieldX op) (fieldY op) (fieldN op) = op :=
  ht ▸ formatXYN_fields op

theorem formatXYN_eq_of_key {op : Word} {top key : Nibble} (ht : fieldTop op = top) (hk : fieldN op = key) :
    formatXYN top (fieldX op) (fieldY op) key = op :=
  hk ▸ formatXYN_eq ht

theorem encode_of_decodeFamily0 {op : Word} {i : Instr} (h : decodeFamily0 op = .ok i) : encode i = op := by
  unfold decodeFamily0 at h
  split_ifs at h <;> cases h <;> exact ‹op = _›.symm

theorem encode_of_decodeFamily8 {op : Word} {i : Instr} (ht : fieldTop op = 0x8#4) (h : decodeFamily8 op = .ok i) :
    encode i = op := by
  unfold decodeFamily8 at h
  split_ifs at h <;> cases h <;> exact formatXYN_eq_of_key ht ‹_›

theorem encode_of_decodeFamilyE {op : Word} {i : Instr} (ht : fieldTop op = 0xE#4) (h : decodeFamilyE op = .ok i) :
    encode i = op := by
  unfold decodeFamilyE at h
  split_ifs at h <;> cases h <;> exact formatXNN_eq_of_key ht ‹_›

theorem encode_of_decodeFamilyF {op : Word} {i : Instr} (ht : fieldTop op = 0xF#4) (h : decodeFamilyF op = .ok i) :
    encode i = op := by
  unfold decodeFamilyF at h
  split_ifs at h <;> cases h <;> exact formatXNN_eq_of_key ht ‹_›

/-- Settles O3: under each top nibble, the keys that led the decoder to the instruction and the operands it read off are
all the bits of the word. -/
theorem encodeOfDecodeIsTheWord : Obligations.EncodeOfDecodeIsTheWord := by
  intro op i h
  obtain ht | ht | ht | ht | ht | ht | ht | ht | ht | ht | ht | ht | ht | ht | ht | ht := Nibble.cases (fieldTop op)
  · exact encode_of_decodeFamily0 (decode_top0 op ht ▸ h)
  · cases decode_top1 op ht ▸ h; exact formatNNN_eq ht
  · cases decode_top2 op ht ▸ h; exact formatNNN_eq ht
  · cases decode_top3 op ht ▸ h; exact formatXNN_eq ht
  · cases decode_top4 op ht ▸ h; exact formatXNN_eq ht
  · rw [decode_top5 op ht] at h
    split_ifs at h with hk
    cases h; exact formatXYN_eq_of_key ht hk
  · cases decode_top6 op ht ▸ h; exact formatXNN_eq ht
  · cases decode_top7 op ht ▸ h; exact formatXNN_eq ht
  · exact encode_of_decodeFamily8 ht (decode_top8 op ht ▸ h)
  · rw [decode_top9 op ht] at h
    split_ifs at h with hk
    cases h; exact formatXYN_eq_of_key ht hk
  · cases decode_topA op ht ▸ h; exact formatNNN_eq ht
  · cases decode_topB op ht ▸ h; exact formatNNN_eq ht
  · cases decode_topC op ht ▸ h; exact formatXNN_eq ht
  · cases decode_topD op ht ▸ h; exact formatXYN_eq ht
  · exact encode_of_decodeFamilyE ht (decode_topE op ht ▸ h)
  · exact encode_of_decodeFamilyF ht (decode_topF op ht ▸ h)

/-! ### The lookup in the opcode table -/

/-- A row's mask and pattern fix the digits that the built instruction's word has beside its operands. -/
theorem encode_build_of_row (op : Word) : ∀ r ∈ opcodeRows, op &&& r.mask = r.pattern → encode (r.build op) = op := by
  simp only [opcodeRows, opcodeRowsA, opcodeRowsB, opcodeRowsC, List.cons_append, List.nil_append, List.forall_mem_cons,
    BitVec.ofNat_eq_ofNat, and_F000_eq_iff, and_F00F_eq_iff, and_F0FF_eq_iff, and_FFFF_eq_iff, BitVec.reduceAnd,
    fieldTop_ofNat, fieldN_ofNat, fieldNN_ofNat, BitVec.reduceExtractLsb']
  simp +contextual [encode, formatNNN_eq, formatXNN_eq_of_key, formatXYN_eq_of_key]

theorem decode_of_row {op : Word} {r : OpcodeRow} (hr : r ∈ opcodeRows) (h : op &&& r.mask = r.pattern) :
    decode op = .ok (r.build op) := by
  rw [← decode_encode, encode_build_of_row op r hr h]

theorem ite_ok_eq_error_iff {ε α : Type} {c : Prop} [Decidable c] {a : α} {x : Except ε α} {e : ε} :
    (if c then .ok a else x) = .error e ↔ ¬ c ∧ x = .error e := by
  split <;> simp [*]

/-- The decoder reports the word it was given (R85): under each top nibble, what is left of its keys when all of them fail. -/
theorem eq_illegal_of_decode_eq_error {op : Word} {e : DecodeError} (h : decode op = .error e) : e = .illegal op := by
  obtain ht | ht | ht | ht | ht | ht | ht | ht | ht | ht | ht | ht | ht | ht | ht | ht := Nibble.cases (fieldTop op) <;>
    simp [decode, decodeFamily0, decodeFamily8, decodeFamilyE, decodeFamilyF, ite_ok_eq_error_iff, ht] at h <;>
    simp [h]

theorem decode_eq_decodeByRows (op : Word) : decode op = decodeByRows op := by
  unfold decodeByRows
  cases hfind : opcodeRows.find? (fun r => r.accepts op) with
  | some r =>
    have haccepts : r.accepts op = true := List.find?_some (p := fun r : OpcodeRow => r.accepts op) hfind
    exact decode_of_row (List.mem_of_find?_eq_some hfind) (beq_iff_eq.1 haccepts)
  | none =>
    obtain ⟨e, he⟩ := (exists_decode_eq_error_iff op).2 fun r hr heq =>
      List.find?_eq_none.1 hfind r hr (beq_iff_eq.2 heq)
    rw [he, eq_illegal_of_decode_eq_error he]

/-- No two rows agree on the digits that both fix (R85). -/
theorem opcodeRows_disjoint : opcodeRows.Pairwise fun r q => r.pattern &&& q.mask ≠ q.pattern &&& r.mask := by decide

theorem OpcodeRow.agree_of_accepts {r q : OpcodeRow} {op : Word} (hr : r.accepts op = true) (hq : q.accepts op = true) :
    r.pattern &&& q.mask = q.pattern &&& r.mask := by
  rw [← beq_iff_eq.1 hr, ← beq_iff_eq.1 hq, BitVec.and_assoc, BitVec.and_assoc, BitVec.and_comm r.mask]

/-- Settles O4: a word of a row decodes to what the row builds, a word of none is refused, and a word of two rows would
have both patterns. -/
theorem decodeIsTheMatchingRow : Obligations.DecodeIsTheMatchingRow := by
  refine ⟨decode_eq_decodeByRows, fun op => ?_⟩
  have hdisjoint := opcodeRows_disjoint.filter (fun r => r.accepts op)
  have haccepts : ∀ p ∈ opcodeRows.filter (fun r => r.accepts op), p.accepts op = true :=
    fun p hp => List.of_mem_filter (p := fun r : OpcodeRow => r.accepts op) hp
  generalize opcodeRows.filter (fun r => r.accepts op) = matching at hdisjoint haccepts
  match matching with
  | [] | [_] => simp
  | r :: q :: _ =>
    exact absurd (OpcodeRow.agree_of_accepts (haccepts r (by simp)) (haccepts q (by simp)))
      (List.rel_of_pairwise_cons hdisjoint (by simp))

/-! ### The illegal words -/

theorem fieldTop_eq_iff (op : Word) (t : Nibble) : fieldTop op = t ↔ op.toNat / 4096 = t.toNat := by
  rw [← fieldTop_toNat, BitVec.toNat_inj]

theorem fieldN_eq_iff (op : Word) (n : Nibble) : fieldN op = n ↔ op.toNat % 16 = n.toNat := by
  rw [← fieldN_toNat, BitVec.toNat_inj]

theorem fieldNN_eq_iff (op : Word) (nn : Byte) : fieldNN op = nn ↔ op.toNat % 256 = nn.toNat := by
  rw [← fieldNN_toNat, BitVec.toNat_inj]

theorem decodeFamily0_eq_illegal_iff (op : Word) : decodeFamily0 op = .error (.illegal op) ↔
    op.toNat ≠ 0x0000 ∧ op.toNat ≠ 0x00E0 ∧ op.toNat ≠ 0x00EE := by
  simp [decodeFamily0, ite_ok_eq_error_iff, ← BitVec.toNat_inj]

theorem decodeFamily8_eq_illegal_iff (op : Word) : decodeFamily8 op = .error (.illegal op) ↔
    8 ≤ op.toNat % 16 ∧ op.toNat % 16 ≠ 0xE := by
  simp only [decodeFamily8, ite_ok_eq_error_iff, fieldN_eq_iff, BitVec.reduceToNat, and_true]
  omega

theorem decodeFamilyE_eq_illegal_iff (op : Word) : decodeFamilyE op = .error (.illegal op) ↔
    op.toNat % 256 ≠ 0x9E ∧ op.toNat % 256 ≠ 0xA1 := by
  simp [decodeFamilyE, ite_ok_eq_error_iff, fieldNN_eq_iff]

theorem decodeFamilyF_eq_illegal_iff (op : Word) : decodeFamilyF op = .error (.illegal op) ↔
    op.toNat % 256 ≠ 0x07 ∧ op.toNat % 256 ≠ 0x0A ∧ op.toNat % 256 ≠ 0x15 ∧ op.toNat % 256 ≠ 0x18 ∧
      op.toNat % 256 ≠ 0x1E := by
  simp [decodeFamilyF, ite_ok_eq_error_iff, fieldNN_eq_iff]

/-- Settles O5: under each top nibble the refused words are those whose key is none of its table. -/
theorem illegalWordsAreTheListedOnes : Obligations.IllegalWordsAreTheListedOnes := by
  intro op
  have hlt := op.isLt
  obtain ht | ht | ht | ht | ht | ht | ht | ht | ht | ht | ht | ht | ht | ht | ht | ht := Nibble.cases (fieldTop op) <;>
    have htop := (fieldTop_eq_iff op _).1 ht <;> rw [BitVec.toNat_ofNat] at htop
  · rw [decode_top0 op ht, decodeFamily0_eq_illegal_iff]; omega
  · exact iff_of_false (by simp [decode_top1 op ht]) (by omega)
  · exact iff_of_false (by simp [decode_top2 op ht]) (by omega)
  · exact iff_of_false (by simp [decode_top3 op ht]) (by omega)
  · exact iff_of_false (by simp [decode_top4 op ht]) (by omega)
  · rw [decode_top5 op ht, ite_ok_eq_error_iff, and_iff_left rfl, fieldN_eq_iff, BitVec.toNat_ofNat]; omega
  · exact iff_of_false (by simp [decode_top6 op ht]) (by omega)
  · exact iff_of_false (by simp [decode_top7 op ht]) (by omega)
  · rw [decode_top8 op ht, decodeFamily8_eq_illegal_iff]; omega
  · rw [decode_top9 op ht, ite_ok_eq_error_iff, and_iff_left rfl, fieldN_eq_iff, BitVec.toNat_ofNat]; omega
  · exact iff_of_false (by simp [decode_topA op ht]) (by omega)
  · exact iff_of_false (by simp [decode_topB op ht]) (by omega)
  · exact iff_of_false (by simp [decode_topC op ht]) (by omega)
  · exact iff_of_false (by simp [decode_topD op ht]) (by omega)
  · rw [decode_topE op ht, decodeFamilyE_eq_illegal_iff]; omega
  · rw [decode_topF op ht, decodeFamilyF_eq_illegal_iff]; omega

end Sys2Proof.Machine
end

section
/-! SUPPORT. The flag writers of the register file (41_alu.md R146 to R153): a result written to `V[X]` and then a flag to
VF, the shifts in place, and both as numbers. -/

namespace Sys2Proof.Machine

/-! ### A result, then a flag -/

/-- The order of writes of `8XY4`, `8XY5` and `8XY7` (R146, R147, R149): the result, then the flag. -/
def State.resultThenFlag (s : State) (x : Reg) (result flag : Byte) : State :=
  ((s.setReg x result).setFlag flag).advance

theorem exec_addReg (x y : Reg) (s : State) : exec (.addReg x y) s =
    .next (s.resultThenFlag x (s.reg x + s.reg y) (carryFlag (s.reg x) (s.reg y))) := rfl

theorem exec_subReg (x y : Reg) (s : State) : exec (.subReg x y) s =
    .next (s.resultThenFlag x (s.reg x - s.reg y) (notBorrowFlag (s.reg x) (s.reg y))) := rfl

theorem exec_subn (x y : Reg) (s : State) : exec (.subn x y) s =
    .next (s.resultThenFlag x (s.reg y - s.reg x) (notBorrowFlag (s.reg y) (s.reg x))) := rfl

theorem State.resultThenFlag_reg_self (s : State) {x : Reg} (hx : x ≠ Reg.flag) (result flag : Byte) :
    (s.resultThenFlag x result flag).reg x = result := by
  rw [resultThenFlag, advance_reg, setFlag_reg, if_neg hx, setReg_reg, if_pos rfl]

theorem State.resultThenFlag_reg_flag (s : State) (x : Reg) (result flag : Byte) :
    (s.resultThenFlag x result flag).reg Reg.flag = flag := by
  rw [resultThenFlag, advance_reg, setFlag_reg, if_pos rfl]

theorem State.resultThenFlag_regsKept (s : State) (x : Reg) (result flag : Byte) :
    RegsKept [x, Reg.flag] s (s.resultThenFlag x result flag) := by
  intro r hr
  obtain ⟨hx, hflag⟩ := List.ne_and_not_mem_of_not_mem_cons hr
  rw [resultThenFlag, advance_reg, setFlag_reg, if_neg (List.ne_of_not_mem_cons hflag), setReg_reg, if_neg hx]

theorem State.resultThenFlag_frame (s : State) (x : Reg) (result flag : Byte) :
    Frame [] s (s.resultThenFlag x result flag) :=
  s.frame_with_pc_v _ _

/-! ### Shifts in place -/

theorem State.shiftInPlace_regsKept (s : State) (x : Reg) (out shift : Byte → Byte) :
    RegsKept [x, Reg.flag] s (s.shiftInPlace x out shift) := by
  intro r hr
  obtain ⟨hx, hflag⟩ := List.ne_and_not_mem_of_not_mem_cons hr
  rw [shiftInPlace, advance_reg, setReg_reg, if_neg hx, setFlag_reg, if_neg (List.ne_of_not_mem_cons hflag)]

theorem State.shiftInPlace_frame (s : State) (x : Reg) (out shift : Byte → Byte) :
    Frame [] s (s.shiftInPlace x out shift) :=
  s.frame_with_pc_v _ _

/-! ### Results and flags as numbers -/

theorem flagByte_eq_zero_or_one (c : Bool) : flagByte c = 0 ∨ flagByte c = 1 := by
  cases c
  · exact .inl rfl
  · exact .inr rfl

theorem flagByte_eq_one_iff (c : Bool) : flagByte c = 1 ↔ c = true := by
  cases c <;> decide

theorem flagByte_decide_toNat (p : Prop) [Decidable p] : (flagByte (decide p)).toNat = if p then 1 else 0 := by
  rw [flagByte_toNat]
  exact if_congr decide_eq_true_iff rfl rfl

theorem carryFlag_toNat (a b : Byte) : (carryFlag a b).toNat = if a.toNat + b.toNat > 255 then 1 else 0 :=
  flagByte_decide_toNat _

theorem notBorrowFlag_toNat (a b : Byte) : (notBorrowFlag a b).toNat = if a.toNat ≥ b.toNat then 1 else 0 :=
  flagByte_decide_toNat _

theorem lowBitFlag_toNat (a : Byte) : (lowBitFlag a).toNat = a.toNat % 2 := by
  rw [lowBitFlag, BitVec.getLsbD, Nat.testBit_zero, flagByte_decide_toNat]
  split <;> omega

theorem highBitFlag_toNat (a : Byte) : (highBitFlag a).toNat = a.toNat / 128 := by
  have := a.isLt
  rw [highBitFlag, BitVec.getLsbD, Nat.testBit_eq_decide_div_mod_eq, flagByte_decide_toNat]
  split <;> omega

/-- A difference of bytes is increased by 256 where it would be negative (R147). -/
theorem sub_toNat (a b : Byte) :
    (a - b).toNat = if a.toNat ≥ b.toNat then a.toNat - b.toNat else a.toNat + 256 - b.toNat := by
  have ha := a.isLt
  have hb := b.isLt
  rw [BitVec.toNat_sub]
  split <;> omega

theorem shiftRight_one_toNat (a : Byte) : (a >>> 1).toNat = a.toNat / 2 := by
  rw [BitVec.toNat_ushiftRight, Nat.shiftRight_eq_div_pow, Nat.pow_one]

theorem shiftLeft_one_toNat (a : Byte) : (a <<< 1).toNat = a.toNat * 2 % 256 := by
  rw [BitVec.toNat_shiftLeft, Nat.shiftLeft_eq, Nat.pow_one]

/-! ### The instructions -/

/-- Settles O17: the sum is written to `V[X]` and then the carry to VF. -/
theorem addRegGivesSumAndCarry : Obligations.AddRegGivesSumAndCarry := by
  refine fun x y s => ⟨_, exec_addReg x y s, fun hx => ?_, ?_, rfl, s.resultThenFlag_regsKept x _ _,
    s.resultThenFlag_frame x _ _⟩
  · rw [s.resultThenFlag_reg_self hx, BitVec.toNat_add]
  · rw [s.resultThenFlag_reg_flag, carryFlag_toNat]

/-- Settles O18: the difference is written to `V[X]` and then the flag to VF. -/
theorem subRegGivesDifferenceAndNotBorrow : Obligations.SubRegGivesDifferenceAndNotBorrow := by
  refine fun x y s => ⟨_, exec_subReg x y s, fun hx => ?_, ?_, rfl, s.resultThenFlag_regsKept x _ _,
    s.resultThenFlag_frame x _ _⟩
  · rw [s.resultThenFlag_reg_self hx, sub_toNat]
  · rw [s.resultThenFlag_reg_flag, notBorrowFlag_toNat]

/-- Settles O19: as for `8XY5`, with the operands exchanged. -/
theorem subnGivesReverseDifferenceAndNotBorrow : Obligations.SubnGivesReverseDifferenceAndNotBorrow := by
  refine fun x y s => ⟨_, exec_subn x y s, fun hx => ?_, ?_, rfl, s.resultThenFlag_regsKept x _ _,
    s.resultThenFlag_frame x _ _⟩
  · rw [s.resultThenFlag_reg_self hx, sub_toNat]
  · rw [s.resultThenFlag_reg_flag, notBorrowFlag_toNat]

/-- Settles O20: bit 0 goes to VF and then `V[X]` is halved, which for `X = 15` halves a 0 or a 1. -/
theorem shrHalvesAndKeepsLowBit : Obligations.ShrHalvesAndKeepsLowBit := by
  refine fun x y s => ⟨_, exec_shr x y s, fun hx => ⟨?_, ?_⟩, fun hx => ?_, rfl, s.shiftInPlace_regsKept x _ _,
    s.shiftInPlace_frame x _ _⟩
  · rw [s.shiftInPlace_reg_self, if_neg hx, shiftRight_one_toNat]
  · rw [s.shiftInPlace_reg_flag, if_neg hx, lowBitFlag_toNat]
  · rw [s.shiftInPlace_reg_flag, if_pos hx, shiftRight_one_toNat, lowBitFlag_toNat]
    omega

/-- Settles O21: bit 7 goes to VF and then `V[X]` is doubled, which for `X = 15` doubles a 0 or a 1. -/
theorem shlDoublesAndKeepsHighBit : Obligations.ShlDoublesAndKeepsHighBit := by
  refine fun x y s => ⟨_, exec_shl x y s, fun hx => ⟨?_, ?_⟩, fun hx => ?_, rfl, s.shiftInPlace_regsKept x _ _,
    s.shiftInPlace_frame x _ _⟩
  · rw [s.shiftInPlace_reg_self, if_neg hx, shiftLeft_one_toNat]
  · rw [s.shiftInPlace_reg_flag, if_neg hx, highBitFlag_toNat]
  · have hlt := (s.reg x).isLt
    rw [s.shiftInPlace_reg_flag, if_pos hx, shiftLeft_one_toNat, highBitFlag_toNat, ← hx]
    split <;> omega

end Sys2Proof.Machine
end

section
/-! SUPPORT. `FX1E` and `CXNN` (42_index_random.md R171 to R173). -/

namespace Sys2Proof.Machine

theorem State.regWide_toNat (s : State) (x : Reg) : (s.regWide x).toNat = (s.reg x).toNat :=
  BitVec.toNat_setWidth_of_le (by decide)

/-- Whatever becomes of `pc`, the V registers and the draw counter, every other piece of state is as it was. -/
theorem State.frame_with_pc_v_draws (s : State) (w : Word) (v : Vector Byte 16) (draws : Nat) :
    Frame [.draws] s { s with pc := w, v := v, draws := draws } :=
  fun p hp => match p with
  | .draws => absurd (List.mem_singleton_self _) hp
  | .memory => fun _ => rfl
  | .stack => ⟨rfl, fun _ => rfl⟩
  | .screen => fun _ _ => rfl
  | .index | .keys | .delay | .sound => rfl

theorem exec_rnd (x : Reg) (nn : Byte) (s : State) :
    exec (.rnd x nn) s = .next (s.draw8.2.setReg x (Config.randomByte s.draws &&& nn)).advance := rfl

/-- A `CXNN` has drawn before it writes, and the draw touches no register. -/
theorem State.draw8_setReg_advance_regsKept (s : State) (x : Reg) (b : Byte) :
    RegsKept [x] s (s.draw8.2.setReg x b).advance := fun r hr =>
  (s.draw8.2.setReg_advance_regsKept x b r hr).trans (s.draw8_reg r)

/-- Settles O24: the sum of two words, one of them a byte made wide. -/
theorem addIWrapsAtSixteenBits : Obligations.AddIWrapsAtSixteenBits := fun x s =>
  ⟨(s.setI (s.i + s.regWide x)).advance, rfl, by rw [State.advance_i, State.setI_i, BitVec.toNat_add, s.regWide_toNat],
    rfl, s.setI_advance_regsKept _, s.setI_advance_frame _⟩

/-- Settles O25: both meanings write the masked byte to `V[X]`, and the instruction's own byte is the next draw. -/
theorem rndMasksTheDrawnByte : Obligations.RndMasksTheDrawnByte := fun x nn s =>
  ⟨⟨_, exec_rnd x nn s, s.draw8.2.setReg_advance_reg_self x _, rfl, rfl, s.draw8_setReg_advance_regsKept x _,
      s.frame_with_pc_v_draws _ _ _⟩,
    fun _ => ⟨_, rfl, s.setReg_advance_reg_self x _, rfl, s.setReg_advance_regsKept x _, s.setReg_advance_frame x _⟩⟩

end Sys2Proof.Machine
end

section
/-! SUPPORT. Control flow over registers and the stack (40_flow.md R113, R116, R118, R121, R122). -/

namespace Sys2Proof.Machine

/-- Whatever becomes of `pc` and the stack, every other piece of state is as it was. -/
theorem State.frame_with_pc_stack (s : State) (w : Word) (stack : Vector Word 16) (sp : Fin 17) :
    Frame [.stack] s { s with pc := w, stack := stack, sp := sp } :=
  fun p hp => match p with
  | .stack => absurd (List.mem_singleton_self _) hp
  | .memory => fun _ => rfl
  | .screen => fun _ _ => rfl
  | .index | .keys | .delay | .sound | .draws => rfl

/-- A return from a stack that is not empty (R113). -/
theorem exec_ret_of_sp_ne {s : State} (h : s.sp.val ≠ 0) : exec .ret s =
    .next { s with pc := s.stack[s.sp.val - 1]'(by omega), sp := ⟨s.sp.val - 1, by omega⟩ } := by
  rw [exec, execRet, State.pop, if_neg h]
  rfl

/-- A call with room on the stack (R116). -/
theorem exec_call_eq_next (nnn : Address12) {s : State} (h : s.sp.val < 16) : exec (.call nnn) s =
    .next { s with pc := zextNNN nnn, stack := s.stack.set s.sp.val s.npc h, sp := ⟨s.sp.val + 1, by omega⟩ } := by
  rw [exec, execCall, State.push, dif_pos h]
  rfl

/-- A step whose instruction fails answers its failure and keeps the state (R228). -/
theorem transact_step_of_execFails {s : State} {i : Instr} {f : Fault} (hi : NextInstr s i) (h : ExecFails s i f) :
    transact .step s = (.failed f, s) := by
  rw [transact, step_of_nextInstr s i hi, exec_eq_fault_of_execFails h, commit_fault]

/-- Settles O8: a pop from a stack that is not empty, and the failure of a pop from an empty one. -/
theorem retPopsIntoPc : Obligations.RetPopsIntoPc :=
  ⟨fun s h => ⟨_, exec_ret_of_sp_ne h, rfl, rfl, fun _ => rfl, fun _ _ => rfl, s.frame_with_pc_stack _ _ _⟩,
    fun _ h => exec_eq_fault_of_execFails (.ret h), fun _ h hi => transact_step_of_execFails hi (.ret h)⟩

/-- Settles O10: a push with room on the stack, and the failure of a push with none. -/
theorem callPushesNpcAndJumps : Obligations.CallPushesNpcAndJumps := by
  refine ⟨fun nnn s h => ⟨_, exec_call_eq_next nnn h, rfl, s.stack.getElem_set_self h, fun j hj => ?_, zextNNN_toNat nnn,
      fun _ _ => rfl, s.frame_with_pc_stack _ _ _⟩,
    fun nnn _ h => exec_eq_fault_of_execFails (.call nnn h),
    fun nnn _ h hi => transact_step_of_execFails hi (.call nnn h)⟩
  exact s.stack.getElem_set_ne h j.isLt hj.symm

/-- The target of `BNNN` fits 16 bits: at most 255 + 4095 (R118). -/
theorem regZeroWide_add_zextNNN_toNat (nnn : Address12) (s : State) :
    (s.regZeroWide + zextNNN nnn).toNat = (s.reg 0).toNat + nnn.toNat := by
  have hreg := (s.reg 0).isLt
  have hnnn := nnn.isLt
  rw [BitVec.toNat_add, State.regZeroWide, s.regWide_toNat, zextNNN_toNat]
  omega

/-- Settles O11: the sum does not overflow. -/
theorem jpV0AddsRegisterZero : Obligations.JpV0AddsRegisterZero := fun nnn s =>
  ⟨s.setPc (s.regZeroWide + zextNNN nnn), rfl, regZeroWide_add_zextNNN_toNat nnn s, s.setPc_regsKept _,
    s.setPc_frame _⟩

/-- Settles O13: each instruction is a skip, on `V[X] = V[Y]` and on `V[X] ≠ V[Y]`. -/
theorem skipsOnRegister : Obligations.SkipsOnRegister := fun _ _ s =>
  ⟨⟨_, rfl, s.skipIf_pc_of_iff beq_iff_eq, s.setPc_regsKept _, s.setPc_frame _⟩,
    ⟨_, rfl, s.skipIf_pc_of_iff bne_iff_ne, s.setPc_regsKept _, s.setPc_frame _⟩⟩

end Sys2Proof.Machine
end

section
/-! SUPPORT. Drawing (43_display.md R181, R182): a sprite as the list of the points of its set bits, and what toggling a list
of different pixels leaves. -/

namespace Sys2Proof.Machine

/-! ### Points and pixels -/

/-- The two points are wrapped onto the same pixel of the grid (R28). -/
abbrev SamePixel (p q : Nat × Nat) : Prop := p.1 % 64 = q.1 % 64 ∧ p.2 % 32 = q.2 % 32

/-- The pixel a point is wrapped onto. -/
def pixAt (fb : Framebuffer) (p : Nat × Nat) : Bool := pix fb p.1 p.2

theorem pixAt_eq_of_samePixel (fb : Framebuffer) {p q : Nat × Nat} (h : SamePixel p q) : pixAt fb p = pixAt fb q := by
  simp only [pixAt, pix, h.1, h.2]

theorem pixAt_togglePix_of_samePixel (fb : Framebuffer) {p q : Nat × Nat} (h : SamePixel q p) :
    pixAt (togglePix fb p.1 p.2) q = !pixAt fb q := by
  rw [pixAt, pix_togglePix, decide_eq_true h, Bool.xor_true]
  rfl

theorem pixAt_togglePix_of_not_samePixel (fb : Framebuffer) {p q : Nat × Nat} (h : ¬ SamePixel q p) :
    pixAt (togglePix fb p.1 p.2) q = pixAt fb q := by
  rw [pixAt, pix_togglePix, decide_eq_false h, Bool.xor_false]
  rfl

/-! ### Toggling a list of points -/

/-- The points in turn, each as one set bit of a sprite (R181). -/
def toggleAll (ps : List (Nat × Nat)) (c : Canvas) : Canvas := ps.foldl (fun c p => toggleAt c p.1 p.2) c

theorem toggleAll_cons (p : Nat × Nat) (ps : List (Nat × Nat)) (c : Canvas) :
    toggleAll (p :: ps) c = toggleAll ps (toggleAt c p.1 p.2) := rfl

/-- No two of the points are the same pixel. -/
def DifferentPixels (ps : List (Nat × Nat)) : Prop := ps.Pairwise fun p q => ¬ SamePixel p q

/-- Some point of the list is the pixel `q`. -/
def Hits (ps : List (Nat × Nat)) (q : Nat × Nat) : Prop := ∃ p ∈ ps, SamePixel q p

theorem hits_cons (p : Nat × Nat) (ps : List (Nat × Nat)) (q : Nat × Nat) :
    Hits (p :: ps) q ↔ SamePixel q p ∨ Hits ps q := by
  simp [Hits]

/-- A pixel that no point is stays as it was. -/
theorem pixAt_toggleAll_of_not_hits {ps : List (Nat × Nat)} {q : Nat × Nat} (h : ¬ Hits ps q) (c : Canvas) :
    pixAt (toggleAll ps c).fb q = pixAt c.fb q := by
  induction ps generalizing c with
  | nil => rfl
  | cons p ps ih =>
    rw [hits_cons, not_or] at h
    rw [toggleAll_cons, ih h.2]
    exact pixAt_togglePix_of_not_samePixel c.fb h.1

/-- A pixel that one of different points is flips: the other points leave it alone. -/
theorem pixAt_toggleAll_of_hits {ps : List (Nat × Nat)} {q : Nat × Nat} (hps : DifferentPixels ps) (h : Hits ps q)
    (c : Canvas) : pixAt (toggleAll ps c).fb q = !pixAt c.fb q := by
  induction ps generalizing c with
  | nil => obtain ⟨p, hp, -⟩ := h; cases hp
  | cons p ps ih =>
    obtain ⟨hp, hps⟩ := List.pairwise_cons.1 hps
    rw [toggleAll_cons]
    by_cases hq : SamePixel q p
    · have hrest : ¬ Hits ps q := fun ⟨r, hr, hqr⟩ => hp r hr ⟨hq.1.symm.trans hqr.1, hq.2.symm.trans hqr.2⟩
      rw [pixAt_toggleAll_of_not_hits hrest]
      exact pixAt_togglePix_of_samePixel c.fb hq
    · rw [ih hps (((hits_cons p ps q).1 h).resolve_left hq)]
      exact congrArg not (pixAt_togglePix_of_not_samePixel c.fb hq)

/-- With different points, each meets the pixel that was there before the first. -/
theorem toggleAll_collision {ps : List (Nat × Nat)} (hps : DifferentPixels ps) (c : Canvas) :
    (toggleAll ps c).collision = true ↔ c.collision = true ∨ ∃ p ∈ ps, pixAt c.fb p = true := by
  induction ps generalizing c with
  | nil => simp [toggleAll]
  | cons p ps ih =>
    obtain ⟨hp, hps⟩ := List.pairwise_cons.1 hps
    have hkept : ∀ q ∈ ps, pixAt (toggleAt c p.1 p.2).fb q = pixAt c.fb q := fun q hq =>
      pixAt_togglePix_of_not_samePixel c.fb fun hqp => hp q hq ⟨hqp.1.symm, hqp.2.symm⟩
    have hfirst : (toggleAt c p.1 p.2).collision = (c.collision || pixAt c.fb p) := rfl
    rw [toggleAll_cons, ih hps, hfirst, Bool.or_eq_true, or_assoc, List.exists_mem_cons_iff]
    exact or_congr_right (or_congr_right (exists_congr fun q => and_congr_right fun hq => by rw [hkept q hq]))

/-! ### A sprite as a list of points -/

/-- The points of the set bits of one sprite byte drawn from column `x0` on (R181). -/
def rowPoints (b : Byte) (x0 y : Nat) : List (Nat × Nat) :=
  ((List.range 8).filter fun column => b.getLsbD (7 - column)).map fun column => (x0 + column, y)

/-- The points of the set bits of a sprite, row by row (R181). -/
def spritePoints (m : Memory) (a n x0 y0 : Nat) : List (Nat × Nat) :=
  (List.range n).flatMap fun row => rowPoints (Memory.read m (a + row)) x0 (y0 + row)

theorem drawRow_eq_toggleAll (b : Byte) (x0 y : Nat) (c : Canvas) :
    drawRow b x0 y c = toggleAll (rowPoints b x0 y) c := by
  rw [toggleAll, rowPoints, List.foldl_map, List.foldl_filter]
  rfl

theorem drawRows_eq_toggleAll (m : Memory) (a n x0 y0 : Nat) (c : Canvas) :
    drawRows m a n x0 y0 c = toggleAll (spritePoints m a n x0 y0) c := by
  rw [toggleAll, spritePoints, List.foldl_flatMap, drawRows]
  simp only [drawRow_eq_toggleAll, toggleAll]

theorem mem_rowPoints_iff (b : Byte) (x0 y : Nat) (p : Nat × Nat) :
    p ∈ rowPoints b x0 y ↔ ∃ column < 8, b.getLsbD (7 - column) = true ∧ p = (x0 + column, y) := by
  simp only [rowPoints, List.mem_map, List.mem_filter, List.mem_range, and_assoc, eq_comm (a := p)]

theorem mem_spritePoints_iff (m : Memory) (a n x0 y0 : Nat) (p : Nat × Nat) :
    p ∈ spritePoints m a n x0 y0 ↔ ∃ row < n, ∃ column < 8,
      (Memory.read m (a + row)).getLsbD (7 - column) = true ∧ p = (x0 + column, y0 + row) := by
  simp [spritePoints, mem_rowPoints_iff]

/-- A sprite is at most 8 wide and 32 high, so no two of its points wrap onto the same pixel. -/
theorem spritePoints_different (m : Memory) (a : Nat) {n : Nat} (hn : n ≤ 32) (x0 y0 : Nat) :
    DifferentPixels (spritePoints m a n x0 y0) := by
  refine List.pairwise_flatMap.2 ⟨fun row _ => ?_, ?_⟩
  · refine List.pairwise_map.2 (List.Pairwise.filter _ ?_)
    refine List.pairwise_lt_range.imp_of_mem fun {k l} hk hl hlt hsame => ?_
    rw [List.mem_range] at hk hl
    have := hsame.1
    dsimp only at this
    omega
  · refine List.pairwise_lt_range.imp_of_mem fun {k l} hk hl hlt p hp q hq hsame => ?_
    rw [List.mem_range] at hk hl
    obtain ⟨_, -, -, rfl⟩ := (mem_rowPoints_iff _ _ _ p).1 hp
    obtain ⟨_, -, -, rfl⟩ := (mem_rowPoints_iff _ _ _ q).1 hq
    have := hsame.2
    dsimp only at this
    omega

/-- The pixels under a sprite are those that its points are wrapped onto. -/
theorem spriteCovers_iff_hits (m : Memory) (a n x0 y0 : Nat) {cx cy : Nat} (hx : cx < 64) (hy : cy < 32) :
    SpriteCovers m a n x0 y0 cx cy ↔ Hits (spritePoints m a n x0 y0) (cx, cy) := by
  constructor
  · rintro ⟨row, column, hrow, hcolumn, hbit, hcx, hcy⟩
    refine ⟨_, (mem_spritePoints_iff m a n x0 y0 _).2 ⟨row, hrow, column, hcolumn, hbit, rfl⟩, ?_, ?_⟩
    · exact (Nat.mod_eq_of_lt hx).trans hcx
    · exact (Nat.mod_eq_of_lt hy).trans hcy
  · rintro ⟨p, hp, hsame⟩
    obtain ⟨row, hrow, column, hcolumn, hbit, rfl⟩ := (mem_spritePoints_iff m a n x0 y0 _).1 hp
    exact ⟨row, column, hrow, hcolumn, hbit, (Nat.mod_eq_of_lt hx).symm.trans hsame.1,
      (Nat.mod_eq_of_lt hy).symm.trans hsame.2⟩

/-! ### The drawing of an instruction -/

/-- The pixel is under a set bit of the sprite that `DXYN` draws in the state. -/
def State.Covered (s : State) (x y : Reg) (n : Nibble) (cx cy : Nat) : Prop :=
  SpriteCovers s.mem s.i.toNat n.toNat (s.reg x).toNat (s.reg y).toNat cx cy

/-- The pixels and the collision that `DXYN` computes (R181). -/
def State.canvas (s : State) (x y : Reg) (n : Nibble) : Canvas :=
  drawRows s.mem s.i.toNat (rowCount n) (s.reg x).toNat (s.reg y).toNat ⟨s.fb, false⟩

/-- The state after a `DXYN` that succeeds (R181). -/
def State.drawn (s : State) (x y : Reg) (n : Nibble) : State :=
  ({ s with fb := (s.canvas x y n).fb }.setFlag (flagByte (s.canvas x y n).collision)).advance

theorem exec_drw_of_fits (x y : Reg) (n : Nibble) {s : State} (h : n.toNat = 0 ∨ s.i.toNat + n.toNat ≤ 4096) :
    exec (.drw x y n) s = .next (s.drawn x y n) := by
  rw [exec, execDrw, (boundsFailure_eq_none_iff s.i.toNat (rowCount n)).2 h]
  rfl

theorem eq_drawn_of_exec_drw {x y : Reg} {n : Nibble} {s t : State} (h : exec (.drw x y n) s = .next t) :
    t = s.drawn x y n := by
  cases e : boundsFailure s.i.toNat (rowCount n) <;> rw [exec, execDrw, e] at h <;> cases h
  rfl

theorem State.drawn_reg_flag (s : State) (x y : Reg) (n : Nibble) :
    (s.drawn x y n).reg Reg.flag = flagByte (s.canvas x y n).collision := by
  rw [drawn, advance_reg, setFlag_reg, if_pos rfl]

theorem State.canvas_eq_toggleAll (s : State) (x y : Reg) (n : Nibble) : s.canvas x y n =
    toggleAll (spritePoints s.mem s.i.toNat n.toNat (s.reg x).toNat (s.reg y).toNat) ⟨s.fb, false⟩ :=
  drawRows_eq_toggleAll _ _ _ _ _ _

theorem State.spritePoints_different (s : State) (x y : Reg) (n : Nibble) :
    DifferentPixels (spritePoints s.mem s.i.toNat n.toNat (s.reg x).toNat (s.reg y).toNat) :=
  Machine.spritePoints_different _ _ (n.isLt.le.trans (by decide)) _ _

variable (s : State) (x y : Reg) (n : Nibble) {cx cy : Nat}

theorem State.pix_drawn_of_covered (hx : cx < 64) (hy : cy < 32) (h : s.Covered x y n cx cy) :
    pix (s.drawn x y n).fb cx cy = !pix s.fb cx cy := by
  change pixAt (s.canvas x y n).fb (cx, cy) = _
  rw [canvas_eq_toggleAll]
  exact pixAt_toggleAll_of_hits (s.spritePoints_different x y n) ((spriteCovers_iff_hits _ _ _ _ _ hx hy).1 h) _

theorem State.pix_drawn_of_not_covered (hx : cx < 64) (hy : cy < 32) (h : ¬ s.Covered x y n cx cy) :
    pix (s.drawn x y n).fb cx cy = pix s.fb cx cy := by
  change pixAt (s.canvas x y n).fb (cx, cy) = _
  rw [canvas_eq_toggleAll]
  exact pixAt_toggleAll_of_not_hits (mt (spriteCovers_iff_hits _ _ _ _ _ hx hy).2 h) _

/-- A collision is a lit pixel under a set bit (R181). -/
theorem State.canvas_collision_iff : (s.canvas x y n).collision = true ↔
    ∃ cx < 64, ∃ cy < 32, pix s.fb cx cy = true ∧ s.Covered x y n cx cy := by
  rw [canvas_eq_toggleAll, toggleAll_collision (s.spritePoints_different x y n)]
  simp only [Bool.false_eq_true, false_or]
  constructor
  · rintro ⟨p, hp, hlit⟩
    have hx : p.1 % 64 < 64 := Nat.mod_lt _ (by decide)
    have hy : p.2 % 32 < 32 := Nat.mod_lt _ (by decide)
    have hsame : SamePixel (p.1 % 64, p.2 % 32) p := ⟨Nat.mod_mod _ _, Nat.mod_mod _ _⟩
    exact ⟨_, hx, _, hy, (pixAt_eq_of_samePixel s.fb hsame).trans hlit,
      (spriteCovers_iff_hits _ _ _ _ _ hx hy).2 ⟨p, hp, hsame⟩⟩
  · rintro ⟨cx, hx, cy, hy, hlit, hcovered⟩
    obtain ⟨p, hp, hsame⟩ := (spriteCovers_iff_hits _ _ _ _ _ hx hy).1 hcovered
    exact ⟨p, hp, (pixAt_eq_of_samePixel s.fb hsame).symm.trans hlit⟩

theorem State.drawn_reg_flag_eq_one_iff : (s.drawn x y n).reg Reg.flag = 1 ↔
    ∃ cx < 64, ∃ cy < 32, pix s.fb cx cy = true ∧ s.Covered x y n cx cy := by
  rw [drawn_reg_flag, flagByte_eq_one_iff, canvas_collision_iff]

theorem State.pix_drawn_iff (hx : cx < 64) (hy : cy < 32) : pix (s.drawn x y n).fb cx cy = true ↔
    ¬ (pix s.fb cx cy = true ↔ s.Covered x y n cx cy) := by
  by_cases h : s.Covered x y n cx cy
  · simp [s.pix_drawn_of_covered x y n hx hy h, h]
  · simp [s.pix_drawn_of_not_covered x y n hx hy h, h]

theorem State.drawn_regsKept : RegsKept [Reg.flag] s (s.drawn x y n) :=
  State.setReg_advance_regsKept { s with fb := (s.canvas x y n).fb } Reg.flag _

end Sys2Proof.Machine
end

section
/-! SUPPORT. The statements about drawing (43_display.md R181 to R183). -/

namespace Sys2Proof.Machine

/-- Settles O27: the points of the sprite are different pixels, so each flips once and meets the pixel as it was. -/
theorem drwXorsTheSpriteOntoTheScreen : Obligations.DrwXorsTheSpriteOntoTheScreen := fun x y n s h =>
  ⟨s.drawn x y n, exec_drw_of_fits x y n h, fun _ hx _ hy => s.pix_drawn_iff x y n hx hy,
    (s.drawn_reg_flag x y n).symm ▸ flagByte_eq_zero_or_one _, s.drawn_reg_flag_eq_one_iff x y n, rfl,
    s.drawn_regsKept x y n, s.frame_with_pc_v_fb _ _ _⟩

/-- Settles O28. -/
theorem drwBeyondMemoryFails : Obligations.DrwBeyondMemoryFails := fun x y n _ hn hi =>
  exec_eq_fault_of_execFails (.drw x y n hn hi)

/-- A drawing leaves memory and `I` alone, so with the same coordinates the second one covers the same pixels. -/
theorem State.drawn_covered_iff {s : State} {x y : Reg} {n : Nibble} (hx : (s.drawn x y n).reg x = s.reg x)
    (hy : (s.drawn x y n).reg y = s.reg y) (cx cy : Nat) :
    (s.drawn x y n).Covered x y n cx cy ↔ s.Covered x y n cx cy := by
  rw [Covered, hx, hy]
  rfl

/-- Settles O29: the second drawing flips the same pixels back, and meets those lit that the first met unlit. -/
theorem drawingTwiceRestoresTheScreen : Obligations.DrawingTwiceRestoresTheScreen := by
  intro x y n s t u ht hu hregx hregy
  obtain rfl := eq_drawn_of_exec_drw ht
  obtain rfl := eq_drawn_of_exec_drw hu
  have hcovered := State.drawn_covered_iff hregx hregy
  refine ⟨Framebuffer.ext_pix _ _ fun cx hx cy hy => ?_, ?_⟩
  · by_cases h : s.Covered x y n cx cy
    · rw [State.pix_drawn_of_covered _ x y n hx hy ((hcovered cx cy).2 h), s.pix_drawn_of_covered x y n hx hy h,
        Bool.not_not]
    · rw [State.pix_drawn_of_not_covered _ x y n hx hy (mt (hcovered cx cy).1 h),
        s.pix_drawn_of_not_covered x y n hx hy h]
  · rw [State.drawn_reg_flag_eq_one_iff]
    refine exists_congr fun cx => and_congr_right fun hx => exists_congr fun cy => and_congr_right fun hy => ?_
    rw [hcovered]
    refine and_congr_left fun h => ?_
    rw [s.pix_drawn_of_covered x y n hx hy h, Bool.not_eq_true']

end Sys2Proof.Machine
end

section
/-! SUPPORT. What each instruction writes, the table of 10_state.md R36. -/

namespace Sys2Proof.Machine

/-- The registers and the pieces of state that an instruction may write (R36): those its rule writes. -/
theorem exec_writes_only {i : Instr} {s t : State} (h : exec i s = .next t) :
    RegsKept i.registersWritten s t ∧ Frame i.partsWritten s t := by
  cases i with
  | nop | jp nnn | jpV0 nnn => cases h; exact ⟨s.setPc_regsKept _, s.setPc_frame _⟩
  | seImm x nn | sneImm x nn => cases h; exact ⟨s.setPc_regsKept _, s.setPc_frame _⟩
  | seReg x y | sneReg x y => cases h; exact ⟨s.setPc_regsKept _, s.setPc_frame _⟩
  | skp x => obtain ⟨-, rfl⟩ := execSkp_eq_next h; exact ⟨s.setPc_regsKept _, s.setPc_frame _⟩
  | sknp x => obtain ⟨-, rfl⟩ := execSknp_eq_next h; exact ⟨s.setPc_regsKept _, s.setPc_frame _⟩
  | cls => cases h; exact ⟨s.setFb_advance_regsKept _, s.frame_with_pc_v_fb _ _ _⟩
  | ret => obtain ⟨-, _, _, rfl⟩ := execRet_eq_next h; exact ⟨fun _ _ => rfl, s.frame_with_pc_stack _ _ _⟩
  | call nnn => obtain ⟨-, _, _, rfl⟩ := execCall_eq_next h; exact ⟨fun _ _ => rfl, s.frame_with_pc_stack _ _ _⟩
  | ldImm x nn | addImm x nn => cases h; exact ⟨s.setReg_advance_regsKept x _, s.setReg_advance_frame x _⟩
  | ldReg x y | orReg x y | andReg x y | xorReg x y =>
    cases h; exact ⟨s.setReg_advance_regsKept x _, s.setReg_advance_frame x _⟩
  | ldVxDt x => cases h; exact ⟨s.setReg_advance_regsKept x _, s.setReg_advance_frame x _⟩
  | ldVxK x =>
    obtain ⟨_, -, rfl⟩ | ⟨-, rfl⟩ := execLdVxK_eq_next h
    · exact ⟨s.setReg_advance_regsKept x _, s.setReg_advance_frame x _⟩
    · exact ⟨fun _ _ => rfl, t.setPc_frame t.pc⟩
  | addReg x y | subReg x y | subn x y =>
    cases h; exact ⟨s.resultThenFlag_regsKept x _ _, s.resultThenFlag_frame x _ _⟩
  | shr x y =>
    cases (exec_shr x y s).symm.trans h
    exact ⟨s.shiftInPlace_regsKept x _ _, s.shiftInPlace_frame x _ _⟩
  | shl x y =>
    cases (exec_shl x y s).symm.trans h
    exact ⟨s.shiftInPlace_regsKept x _ _, s.shiftInPlace_frame x _ _⟩
  | ldI nnn => cases h; exact ⟨s.setI_advance_regsKept _, s.setI_advance_frame _⟩
  | addI x => cases h; exact ⟨s.setI_advance_regsKept _, s.setI_advance_frame _⟩
  | rnd x nn => cases h; exact ⟨s.draw8_setReg_advance_regsKept x _, s.frame_with_pc_v_draws _ _ _⟩
  | drw x y n =>
    obtain ⟨fb, b, rfl⟩ := execDrw_eq_next h
    exact ⟨State.setReg_advance_regsKept { s with fb := fb } Reg.flag b, s.frame_with_pc_v_fb _ _ _⟩
  | ldDtVx x => cases h; exact ⟨s.setDt_advance_regsKept _, s.setDt_advance_frame _⟩
  | ldStVx x => cases h; exact ⟨s.setSt_advance_regsKept _, s.setSt_advance_frame _⟩

/-- Settles O49. -/
theorem instructionsWriteOnlyWhatIsListed : Obligations.InstructionsWriteOnlyWhatIsListed :=
  fun _ _ _ => exec_writes_only

/-- No instruction lists memory or the keys among what it writes (R29, R55). -/
theorem hostParts_not_mem_partsWritten (i : Instr) : Part.memory ∉ i.partsWritten ∧ Part.keys ∉ i.partsWritten := by
  cases i <;> simp [Instr.partsWritten]

/-- The flag writers put a flag byte into VF, unless VF is their `X` (R22). -/
theorem exec_flag_of_writesFlag {i : Instr} {s t : State} (h : exec i s = .next t) (hd : Reg.flag ∉ i.destination)
    (hw : i.writesFlag = true) : ∃ c, t.reg Reg.flag = flagByte c := by
  cases i with
  | addReg x y | subReg x y | subn x y => cases h; exact ⟨_, s.resultThenFlag_reg_flag x _ _⟩
  | shr x y =>
    cases (exec_shr x y s).symm.trans h
    exact ⟨_, (s.shiftInPlace_reg_flag x _ _).trans (if_neg (List.ne_of_not_mem_cons hd).symm)⟩
  | shl x y =>
    cases (exec_shl x y s).symm.trans h
    exact ⟨_, (s.shiftInPlace_reg_flag x _ _).trans (if_neg (List.ne_of_not_mem_cons hd).symm)⟩
  | drw x y n => exact ⟨_, (congrArg (·.reg Reg.flag) (eq_drawn_of_exec_drw h)).trans (s.drawn_reg_flag x y n)⟩
  | _ => cases hw

/-- Settles O22: the table of what is written has VF for the flag writers only. -/
theorem flagIsZeroOrOneAndWrittenBySixOnly : Obligations.FlagIsZeroOrOneAndWrittenBySixOnly := by
  intro i s t h hd
  constructor
  · intro hw
    obtain ⟨c, hc⟩ := exec_flag_of_writesFlag h hd hw
    exact hc ▸ flagByte_eq_zero_or_one c
  · intro hw
    refine (exec_writes_only h).1 Reg.flag fun hmem => ?_
    rw [Instr.registersWritten, hw] at hmem
    exact hd (by simpa using hmem)

end Sys2Proof.Machine
end

section
/-! SUPPORT. The keys (44_keypad_timers.md R190 to R193, 45_host_operations.md R207): the key skips, `set_key`, and
instructions run with other keys. -/

namespace Sys2Proof.Machine

/-! ### The key skips -/

theorem exec_skp_of_lt {x : Reg} {s : State} (h : (s.reg x).toNat < 16) :
    exec (.skp x) s = .next (s.skipIf (s.keyDown (s.reg x).toNat)) := by
  rw [exec, execSkp, keyOperand, if_neg (not_le_of_gt h)]

theorem exec_sknp_of_lt {x : Reg} {s : State} (h : (s.reg x).toNat < 16) :
    exec (.sknp x) s = .next (s.skipIf (!s.keyDown (s.reg x).toNat)) := by
  rw [exec, execSknp, keyOperand, if_neg (not_le_of_gt h)]

/-- Settles O30: below 16 each is a skip on the level of the key; from 16 on the key number is the failure. -/
theorem keySkipsFollowTheKeyLevel : Obligations.KeySkipsFollowTheKeyLevel := by
  refine ⟨fun x s hk => ⟨⟨_, exec_skp_of_lt hk, rfl, s.setPc_regsKept _, s.setPc_frame _⟩,
      ⟨_, exec_sknp_of_lt hk, ?_, s.setPc_regsKept _, s.setPc_frame _⟩⟩,
    fun x s hk => ⟨exec_eq_fault_of_execFails (.skp x hk), exec_eq_fault_of_execFails (.sknp x hk)⟩⟩
  cases h : s.keyDown (s.reg x).toNat <;> rfl

/-! ### `set_key` -/

/-- Whatever becomes of the keys, every other piece of state is as it was. -/
theorem State.frame_with_keys (s : State) (keys : BitVec 16) : Frame [.keys] s { s with keys := keys } :=
  fun p hp => match p with
  | .keys => absurd (List.mem_singleton_self _) hp
  | .memory => fun _ => rfl
  | .stack => ⟨rfl, fun _ => rfl⟩
  | .screen => fun _ _ => rfl
  | .index | .delay | .sound | .draws => rfl

/-- A `set_key` below 16 answers `ok`, stores the level and writes nothing but the keys (R207). -/
theorem transact_setKey_of_lt {index : Byte} (pressed : Bool) (s : State) (h : index.toNat < 16) :
    ∃ keys, transact (.setKey index pressed) s = (.ok, { s with keys := keys }) ∧
      ∀ k < 16, State.keyDown { s with keys := keys } k = if k = index.toNat then pressed else s.keyDown k := by
  obtain ⟨hge, -⟩ | ⟨-, t, e, ht, hdown⟩ := setKey_cases index pressed s
  · omega
  · refine ⟨t.keys, ?_, ht ▸ hdown⟩
    rw [transact, e, commit_next, ← ht]

theorem transact_setKey_of_ge {index : Byte} (pressed : Bool) (s : State) (h : index.toNat ≥ 16) :
    transact (.setKey index pressed) s = (.failed (.invalidKeyIndex index.toNat), s) := by
  obtain ⟨-, e⟩ | ⟨hlt, -⟩ := setKey_cases index pressed s
  · rw [transact, e, commit_fault]
  · omega

/-- Settles O37. -/
theorem setKeyStoresOneLevel : Obligations.SetKeyStoresOneLevel := by
  refine ⟨fun index pressed s h => ?_, fun _ pressed s => transact_setKey_of_ge pressed s⟩
  obtain ⟨keys, e, hdown⟩ := transact_setKey_of_lt pressed s h
  exact ⟨_, e, hdown, rfl, fun _ _ => rfl, s.frame_with_keys keys⟩

/-- A pressed key means that a least one is found, at most that one (R193). -/
theorem State.exists_firstKey_of_keyDown {s : State} {k : Nat} (hk : k < 16) (h : s.keyDown k = true) :
    ∃ j ≤ k, s.firstKey = some j := by
  cases e : s.firstKey with
  | none => exact absurd (s.firstKey_eq_none_iff.1 e k hk) (by simp [h])
  | some j =>
    obtain ⟨-, -, hleast⟩ := (s.firstKey_eq_some_iff j).1 e
    exact ⟨j, not_lt.1 fun hlt => by simp [hleast k hlt] at h, rfl⟩

/-- Settles O60: the reported key is pressed, so a least one is found; `FX0A` writes no key. -/
theorem reportedKeyEndsAWait : Obligations.ReportedKeyEndsAWait := by
  intro s x k hnext hk
  obtain ⟨keys, e, hdown⟩ := transact_setKey_of_lt true s hk
  obtain ⟨j, hjk, hfirst⟩ := State.exists_firstKey_of_keyDown hk ((hdown k.toNat hk).trans (if_pos rfl))
  obtain ⟨hj, hjdown, hleast⟩ := (State.firstKey_eq_some_iff _ j).1 hfirst
  have hnext' : NextInstr { s with keys := keys } (.ldVxK x) := hnext
  have hreg : ((State.setReg { s with keys := keys } x (BitVec.ofNat 8 j)).advance.reg x).toNat = j := by
    rw [State.setReg_advance_reg_self, BitVec.toNat_ofNat, Nat.mod_eq_of_lt (by omega)]
  rw [e]
  refine ⟨_, transact_step_of_exec_eq_next hnext' (exec_ldVxK_of_firstKey hfirst), rfl, ?_, ?_, ?_⟩ <;> rw [hreg]
  · exact hjk
  · exact hjdown
  · exact hleast

/-! ### Other keys -/

/-- The state with other key bits. -/
def State.withKeys (s : State) (keys : BitVec 16) : State := { s with keys := keys }

theorem exec_ret_withKeys (s : State) (keys : BitVec 16) :
    exec .ret (s.withKeys keys) = mapNext (·.withKeys keys) (exec .ret s) := by
  by_cases h : s.sp.val = 0
  · rw [exec_eq_fault_of_execFails (.ret (s := s.withKeys keys) h), exec_eq_fault_of_execFails (.ret (s := s) h)]
    rfl
  · rw [exec_ret_of_sp_ne (s := s.withKeys keys) h, exec_ret_of_sp_ne h]
    rfl

theorem exec_call_withKeys (nnn : Address12) (s : State) (keys : BitVec 16) :
    exec (.call nnn) (s.withKeys keys) = mapNext (·.withKeys keys) (exec (.call nnn) s) := by
  by_cases h : s.sp.val < 16
  · rw [exec_call_eq_next nnn (s := s.withKeys keys) h, exec_call_eq_next nnn h]
    rfl
  · have hfull : s.sp.val = 16 := by omega
    rw [exec_eq_fault_of_execFails (.call (s := s.withKeys keys) nnn hfull),
      exec_eq_fault_of_execFails (.call (s := s) nnn hfull)]
    rfl

theorem exec_drw_withKeys (x y : Reg) (n : Nibble) (s : State) (keys : BitVec 16) :
    exec (.drw x y n) (s.withKeys keys) = mapNext (·.withKeys keys) (exec (.drw x y n) s) := by
  by_cases h : n.toNat = 0 ∨ s.i.toNat + n.toNat ≤ 4096
  · rw [exec_drw_of_fits x y n (s := s.withKeys keys) h, exec_drw_of_fits x y n h]
    rfl
  · have hn : 1 ≤ rowCount n := by rw [rowCount]; omega
    have hi : s.i.toNat + rowCount n > 4096 := by rw [rowCount]; omega
    rw [exec_eq_fault_of_execFails (.drw (s := s.withKeys keys) x y n hn hi),
      exec_eq_fault_of_execFails (.drw (s := s) x y n hn hi)]
    rfl

/-- Settles O52: the meanings left to the last case always succeed, with one update of the state that the keys are no part
of. -/
theorem keysAreReadByThreeInstructionsOnly : Obligations.KeysAreReadByThreeInstructionsOnly := by
  intro i s keys hi
  cases i with
  | skp x | sknp x | ldVxK x => cases hi
  | ret => exact exec_ret_withKeys s keys
  | call nnn => exact exec_call_withKeys nnn s keys
  | drw x y n => exact exec_drw_withKeys x y n s keys
  | _ => rfl

end Sys2Proof.Machine
end

section
/-! SUPPORT. The transactions (45_host_operations.md R200 to R211): `load`, `reset`, ticks, the sound port, and what only the
host writes. -/

namespace Sys2Proof.Machine

/-! ### `load` -/

/-- Whatever becomes of memory, every other piece of state is as it was. -/
theorem State.frame_with_mem (s : State) (mem : Memory) : Frame [.memory] s { s with mem := mem } :=
  fun p hp => match p with
  | .memory => absurd (List.mem_singleton_self _) hp
  | .stack => ⟨rfl, fun _ => rfl⟩
  | .screen => fun _ _ => rfl
  | .index | .keys | .delay | .sound | .draws => rfl

theorem transact_load_of_le {rom : List Byte} (s : State) (h : rom.length ≤ 3584) :
    transact (.load rom) s = (.ok, { s with mem := Memory.writeBytes s.mem 0x200 rom }) := by
  rw [transact, load, if_neg (not_lt_of_ge h), commit_next]

theorem transact_load_of_gt {rom : List Byte} (s : State) (h : rom.length > 3584) :
    transact (.load rom) s = (.failed (.romTooLarge rom.length), s) := by
  rw [transact, load, if_pos h]
  rfl

section
variable {rom : List Byte} {m : Memory} (hwf : Memory.wf m = true) (hlen : rom.length ≤ 3584)
include hwf hlen

theorem read_image {k : Nat} (hk : k < rom.length) : Memory.read (Memory.writeBytes m 0x200 rom) (0x200 + k) = rom[k] := by
  rw [Memory.read_writeBytes m 0x200 rom _ hwf (by omega), if_pos (by omega), Nat.add_sub_cancel_left,
    List.getD_eq_getElem _ _ hk]

theorem read_outside_image {a : Nat} (ha : a < 0x200 ∨ 0x200 + rom.length ≤ a) :
    Memory.read (Memory.writeBytes m 0x200 rom) a = Memory.read m a := by
  rw [Memory.read_writeBytes m 0x200 rom _ hwf (by omega), if_neg (by omega)]

end

/-- Settles O38. -/
theorem loadWritesTheImage : Obligations.LoadWritesTheImage :=
  ⟨fun _ s hwf hlen => ⟨_, transact_load_of_le s hlen, fun _ hk => read_image hwf hlen hk,
      fun _ ha => read_outside_image hwf hlen ha, rfl, fun _ _ => rfl, s.frame_with_mem _⟩,
    fun _ s hlen => transact_load_of_gt s hlen⟩

/-- The fetch at a `pc` up to 4094, with the word as a number (R51). -/
theorem exists_fetch_eq_ok {s : State} (h : s.pc.toNat ≤ 4094) : ∃ op, fetch s = .ok op ∧
    op.toNat = (Memory.read s.mem s.pc.toNat).toNat * 256 + (Memory.read s.mem (s.pc.toNat + 1)).toNat :=
  ⟨_, (fetch_eq_ok_iff s _).2 ⟨h, rfl⟩, joinBytes_toNat _ _⟩

/-- Settles O39: the fetch reads the two bytes of the image where the load put them. -/
theorem loadIsSeenByTheNextFetch : Obligations.LoadIsSeenByTheNextFetch := by
  intro rom s k hk hwf hlen hpc
  obtain ⟨op, hfetch, hop⟩ := exists_fetch_eq_ok (s := { s with mem := Memory.writeBytes s.mem 0x200 rom })
    (show s.pc.toNat ≤ 4094 by omega)
  refine ⟨op, by rw [transact_load_of_le s hlen]; exact hfetch, hop.trans ?_⟩
  dsimp only
  rw [hpc, read_image hwf hlen (Nat.lt_of_succ_lt hk), Nat.add_assoc, read_image hwf hlen hk]

/-! ### `reset` -/

theorem reset_font (a : Nat) (ha : a < 80) : Memory.read State.reset.mem a = font.getD a 0 := if_pos ha

theorem reset_fill (a : Nat) (ha : 80 ≤ a) : Memory.read State.reset.mem a = memFill := if_neg (not_lt_of_ge ha)

theorem reset_isResetState : IsResetState State.reset where
  pc := rfl
  font := reset_font
  fill := reset_fill
  regs r := Vector.getElem_replicate r.isLt
  index := rfl
  stack j := Vector.getElem_replicate j.isLt
  sp := rfl
  screen := pix_clearScreen
  keys _ := BitVec.getLsbD_zero
  dt := rfl
  st := rfl

/-- Settles O41: the `reset` transaction gives the reset state but for the draw counter, which the table does not name. -/
theorem resetGivesTheResetState : Obligations.ResetGivesTheResetState :=
  ⟨reset_isResetState, fun _ => ⟨rfl, { reset_isResetState with }, rfl⟩⟩

/-! ### Ticks and the sound port -/

/-- Every tick takes 1 from a sound timer above 0 (R205). -/
theorem transactAll_replicate_tickTimers_st (n : Nat) (s : State) :
    (transactAll (List.replicate n .tickTimers) s).st.toNat = s.st.toNat - n := by
  induction n generalizing s with
  | zero => rfl
  | succ n ih =>
    calc (transactAll (List.replicate n .tickTimers) (tickTimers s)).st.toNat
        = (tickDown s.st).toNat - n := ih (tickTimers s)
      _ = s.st.toNat - (n + 1) := by rw [tickDown_toNat, Nat.sub_sub, Nat.add_comm]

/-- Settles O35. -/
theorem ticksCountDownToZero : Obligations.TicksCountDownToZero := fun n s =>
  ⟨transactAll_replicate_tickTimers_dt n s, transactAll_replicate_tickTimers_st n s⟩

/-- The transactions that can fail answer plain `ok` where they succeed. -/
theorem commit_ne_ticked (s : State) (o : Outcome) (b : Bool) : (commit s o).1 ≠ .ticked b := by
  cases o <;> exact nofun

/-- Settles O36: the tick alone answers `ticked`, and takes 1 from `ST = 1`. -/
theorem soundStopIsTheTickEdge : Obligations.SoundStopIsTheTickEdge := by
  refine ⟨fun _ => rfl, fun r s => ⟨fun h => ?_, ?_⟩⟩
  · cases r with
    | step => exact absurd h (commit_ne_ticked s _ true)
    | setKey index pressed => exact absurd h (commit_ne_ticked s _ true)
    | load rom => exact absurd h (commit_ne_ticked s _ true)
    | display | reset => cases h
    | tickTimers =>
      injection h with hstop
      have hst : s.st = 1 := beq_iff_eq.1 hstop
      exact ⟨rfl, hst, congrArg tickDown hst⟩
  · rintro ⟨rfl, hst, -⟩
    exact congrArg Response.ticked (beq_iff_eq.2 hst)

/-! ### Failures -/

/-- The state beside the failure of a transaction is the one before it (R228). -/
theorem state_of_commit_failed {s : State} {o : Outcome} {f : Fault} (h : (commit s o).1 = .failed f) :
    (commit s o).2 = s := by
  cases o with
  | next t => cases h
  | fault g => rfl
  | refused r => rfl

theorem state_of_transact_failed {r : Transaction} {s : State} {f : Fault} (h : (transact r s).1 = .failed f) :
    (transact r s).2 = s := by
  cases r with
  | step => exact state_of_commit_failed h
  | setKey index pressed => exact state_of_commit_failed h
  | load rom => exact state_of_commit_failed h
  | tickTimers | display | reset => cases h

/-- Settles O44: issued again, the transaction meets the same state. -/
theorem failureChangesNothing : Obligations.FailureChangesNothing := by
  intro r s f h
  have hstate := state_of_transact_failed h
  exact ⟨hstate, hstate.symm ▸ Prod.ext h hstate⟩

/-! ### Memory and keys -/

/-- Everything a step can leave: the state it met, or the next state of its instruction (R110, R228). -/
theorem transact_step_state (s : State) :
    (transact .step s).2 = s ∨ ∃ i t, NextInstr s i ∧ exec i s = .next t ∧ (transact .step s).2 = t := by
  rw [transact]
  cases h : step s with
  | next t =>
    obtain ⟨i, hi, he⟩ := nextInstr_of_step_eq_next h
    exact .inr ⟨i, t, hi, he, rfl⟩
  | fault f => exact .inl rfl
  | refused r => exact .inl rfl

/-- A step keeps the pieces of state that no instruction writes (R29, R55). -/
theorem transact_step_hostParts (s : State) :
    Part.memory.same s (transact .step s).2 ∧ Part.keys.same s (transact .step s).2 := by
  obtain e | ⟨i, t, -, he, e⟩ := transact_step_state s <;> rw [e]
  · exact ⟨fun _ => rfl, rfl⟩
  · obtain ⟨-, hframe⟩ := exec_writes_only he
    obtain ⟨hmemory, hkeys⟩ := hostParts_not_mem_partsWritten i
    exact ⟨hframe _ hmemory, hframe _ hkeys⟩

/-- Settles O51: of the transactions only `load`, `set_key` and `reset` name memory or the keys, and no instruction writes
either. -/
theorem memoryAndKeysAreWrittenByTheHostOnly : Obligations.MemoryAndKeysAreWrittenByTheHostOnly := by
  intro r s hreset
  cases r with
  | step =>
    obtain ⟨hmemory, hkeys⟩ := transact_step_hostParts s
    exact ⟨fun _ => hmemory, fun _ k => congrArg (·.getLsbD k) hkeys⟩
  | tickTimers | display => exact ⟨fun _ _ => rfl, fun _ _ => rfl⟩
  | reset => exact absurd rfl hreset
  | setKey index pressed =>
    refine ⟨fun _ a => ?_, fun hnot => absurd rfl (hnot index pressed)⟩
    obtain ⟨-, e⟩ | ⟨-, t, e, ht, -⟩ := setKey_cases index pressed s <;> rw [transact, e]
    · rfl
    · rw [commit_next, ht]
  | load rom =>
    refine ⟨fun hnot => absurd rfl (hnot rom), fun _ k => ?_⟩
    obtain ⟨-, e⟩ | ⟨-, e⟩ := load_cases rom s <;> rw [transact, e] <;> rfl

end Sys2Proof.Machine
end

section
/-! SUPPORT. The step and its failures (20_memory.md R51 to R53, 40_flow.md R110, 60_exceptions.md R224, R227). -/

namespace Sys2Proof.Machine

/-! ### The step -/

theorem decodeBytes_pair_eq_ok {hi lo : Byte} {i : Instr} {rest : List Byte}
    (h : decodeBytes [hi, lo] = .ok (i, rest)) : decode (joinBytes hi lo) = .ok i := by
  rw [decodeBytes] at h
  split at h <;> cases h
  assumption

/-- Settles O42: the bytes at `pc` are the fetched word, and the step of a next instruction is its meaning. -/
theorem stepRunsTheDecodedInstruction : Obligations.StepRunsTheDecodedInstruction := fun s i _ hpc _ h =>
  step_of_nextInstr s i ⟨_, (fetch_eq_ok_iff s _).2 ⟨hpc, rfl⟩, decodeBytes_pair_eq_ok h⟩

/-- Settles O43: beyond 4095 the lowest offending address is `pc` itself. -/
theorem fetchIsBigEndianAndBounded : Obligations.FetchIsBigEndianAndBounded := by
  refine ⟨fun _ => exists_fetch_eq_ok, fun s h => ?_⟩
  rw [step_of_pc_ge h, show max s.pc.toNat 4096 = if s.pc.toNat = 4095 then 4096 else s.pc.toNat by split <;> omega]

/-! ### What a step can fail with -/

/-- Everything that makes a step fail, in the order of R232: the fetch, the decoder, the instruction. -/
theorem step_eq_fault_cases {s : State} {f : Fault} (h : step s = .fault f) :
    (s.pc.toNat ≥ 4095 ∧ f = .outOfBoundsMemoryAccess (max s.pc.toNat 4096)) ∨ (∃ op, f = .invalidOpcode op) ∨
    (∃ i, NextInstr s i ∧ ExecFails s i f) := by
  obtain ⟨hpc, e⟩ | ⟨op, _, -, -, e⟩ | ⟨op, i, hf, hd, e⟩ := step_cases s <;> rw [e] at h
  · cases h
    exact .inl ⟨hpc, rfl⟩
  · cases h
    exact .inr (.inl ⟨op, rfl⟩)
  · exact .inr (.inr ⟨i, ⟨op, hf, hd⟩, execFails_of_exec_eq_fault h⟩)

/-- Settles O48: the fetch, or an instruction that fails so, which is a draw. -/
theorem outOfBoundsHasTwoCauses : Obligations.OutOfBoundsHasTwoCauses := by
  intro s a
  constructor
  · intro h
    obtain ⟨hpc, ha⟩ | ⟨op, ha⟩ | ⟨i, hi, hfails⟩ := step_eq_fault_cases h
    · injection ha with ha
      exact .inl ⟨hpc, ha⟩
    · cases ha
    · cases hfails with
      | drw x y n hn hbeyond => exact .inr ⟨x, y, n, hi, hn, hbeyond, rfl⟩
  · rintro (⟨hpc, rfl⟩ | ⟨x, y, n, hi, hn, hbeyond, rfl⟩)
    · exact step_of_pc_ge hpc
    · exact (step_of_nextInstr s _ hi).trans (exec_eq_fault_of_execFails (.drw x y n hn hbeyond))

/-! ### Every kind of failure, and where it comes from -/

theorem step_ne_romTooLarge {s : State} {f : Fault} (h : step s = .fault f) (n : Nat) : f ≠ .romTooLarge n := by
  rintro rfl
  obtain ⟨-, e⟩ | ⟨_, e⟩ | ⟨_, -, e⟩ := step_eq_fault_cases h <;> cases e

theorem load_failure {rom : List Byte} {s : State} {f : Fault} (h : (transact (.load rom) s).1 = .failed f) :
    f = .romTooLarge rom.length := by
  obtain ⟨-, e⟩ | ⟨-, e⟩ := load_cases rom s <;> rw [transact, e] at h <;> cases h
  rfl

theorem setKey_failure {index : Byte} {pressed : Bool} {s : State} {f : Fault}
    (h : (transact (.setKey index pressed) s).1 = .failed f) : f = .invalidKeyIndex index.toNat := by
  obtain ⟨-, e⟩ | ⟨-, t, e, -⟩ := setKey_cases index pressed s <;> rw [transact, e] at h <;> cases h
  rfl

theorem execFails_kinds {i : Instr} {s : State} {f : Fault} (h : ExecFails s i f) :
    (i = .ret ∧ f = .stackUnderflow) ∨ ((∃ nnn, i = .call nnn) ∧ f = .stackOverflow) ∨
    ((∃ x y n, i = .drw x y n) ∧ ∃ a, f = .outOfBoundsMemoryAccess a) ∨
    ((∃ x, i = .skp x ∨ i = .sknp x) ∧ ∃ k, f = .invalidKeyIndex k) := by
  cases h with
  | ret => exact .inl ⟨rfl, rfl⟩
  | call nnn => exact .inr (.inl ⟨⟨nnn, rfl⟩, rfl⟩)
  | drw x y n => exact .inr (.inr (.inl ⟨⟨x, y, n, rfl⟩, _, rfl⟩))
  | skp x => exact .inr (.inr (.inr ⟨⟨x, .inl rfl⟩, _, rfl⟩))
  | sknp x => exact .inr (.inr (.inr ⟨⟨x, .inr rfl⟩, _, rfl⟩))

/-- Every instruction has a meaning. -/
theorem exec_ne_refused (i : Instr) (s : State) (r : Refusal) : exec i s ≠ .refused r := by
  intro h
  cases i with
  | ret => obtain ⟨-, e⟩ | ⟨-, e⟩ := s.pop_cases <;> rw [exec, execRet, e] at h <;> cases h
  | call nnn => obtain ⟨-, e⟩ | ⟨_, e⟩ := s.push_cases s.npc <;> rw [exec, execCall, e] at h <;> cases h
  | drw x y n => cases e : boundsFailure s.i.toNat (rowCount n) <;> rw [exec, execDrw, e] at h <;> cases h
  | skp x => obtain ⟨-, e⟩ | ⟨-, e⟩ := keyOperand_cases s x <;> rw [exec, execSkp, e] at h <;> cases h
  | sknp x => obtain ⟨-, e⟩ | ⟨-, e⟩ := keyOperand_cases s x <;> rw [exec, execSknp, e] at h <;> cases h
  | ldVxK x => cases e : s.firstKey <;> rw [exec, execLdVxK, e] at h <;> cases h
  | _ => cases h

/-- A state in which every key number is above 15. -/
def highKeyNumbers : State := { State.reset with v := Vector.replicate 16 16 }

theorem highKeyNumbers_reg (x : Reg) : (highKeyNumbers.reg x).toNat ≥ 16 := by
  have hreg : highKeyNumbers.reg x = 16 := Vector.getElem_replicate x.isLt
  rw [hreg]
  decide

/-- The word 0x0001 is of no row of the opcode map (R89). -/
theorem step_invalidOpcode_one : step (State.reset.withFetchWord 16 0x0001) = .fault (.invalidOpcode 0x0001) :=
  (step_eq_invalidOpcode_iff _ _).2 ⟨fetch_withFetchWord State.reset 16 0x0001 rfl (by decide), _, rfl⟩

theorem transact_load_replicate (s : State) :
    transact (.load (List.replicate 3585 0)) s = (.failed (.romTooLarge 3585), s) := by
  rw [transact_load_of_gt s (by rw [List.length_replicate]; decide), List.length_replicate]

/-- Settles O45: the failures by the lemma on each transaction; each kind in a state after reset with one piece changed. -/
theorem failureKindsOfEachTransaction : Obligations.FailureKindsOfEachTransaction :=
  ⟨fun _ _ h => step_ne_romTooLarge h, fun _ _ _ => load_failure, fun _ _ _ _ => setKey_failure,
    fun _ _ => ⟨nofun, nofun, nofun⟩, fun _ _ _ h => execFails_kinds (execFails_of_exec_eq_fault h), exec_ne_refused,
    ⟨State.reset, exec_eq_fault_of_execFails (.ret rfl)⟩,
    fun nnn => ⟨{ State.reset with sp := 16 }, exec_eq_fault_of_execFails (.call nnn rfl)⟩,
    ⟨0, 0, 1, { State.reset with i := 4096 }, _, exec_eq_fault_of_execFails (.drw 0 0 1 (by decide) (by decide))⟩,
    fun x => ⟨highKeyNumbers, _, exec_eq_fault_of_execFails (.skp x (highKeyNumbers_reg x))⟩,
    fun x => ⟨highKeyNumbers, _, exec_eq_fault_of_execFails (.sknp x (highKeyNumbers_reg x))⟩,
    ⟨_, _, step_invalidOpcode_one⟩,
    ⟨_, State.reset, _, congrArg Prod.fst (transact_load_replicate State.reset)⟩,
    ⟨16, true, State.reset, _, congrArg Prod.fst (transact_setKey_of_ge true State.reset le_rfl)⟩⟩

end Sys2Proof.Machine
end

section
/-! SUPPORT. The facts of every reachable state (10_state.md R35): what an instruction can set `pc` to, what it leaves on the
stack, and the invariant along every transaction. -/

namespace Sys2Proof.Machine

/-! ### The next `pc` -/

/-- What an instruction can set `pc` to: its own address for a waiting `FX0A`, the next one, the one after it for a skip,
and the targets of the jumps, of calls and of returns (R111 to R122, R193). -/
inductive PcTarget (s : State) : Word → Prop
  | stay : PcTarget s s.pc
  | next : PcTarget s s.npc
  | skip : PcTarget s (s.npc + 2)
  | jump (nnn : Address12) : PcTarget s (zextNNN nnn)
  | jumpV0 (nnn : Address12) : PcTarget s (s.regZeroWide + zextNNN nnn)
  | popped (j : Fin 16) (hj : j.val < s.sp.val) : PcTarget s s.stack[j.val]

theorem pcTarget_skipIf (s : State) (c : Bool) : PcTarget s (s.skipIf c).pc := by
  cases c
  · exact .next
  · exact .skip

theorem exec_pcTarget {i : Instr} {s t : State} (h : exec i s = .next t) : PcTarget s t.pc := by
  cases i with
  | jp nnn => cases h; exact .jump nnn
  | jpV0 nnn => cases h; exact .jumpV0 nnn
  | call nnn => obtain ⟨-, _, _, rfl⟩ := execCall_eq_next h; exact .jump nnn
  | ret =>
    obtain ⟨hsp, -⟩ := execRet_eq_next h
    cases (exec_ret_of_sp_ne hsp).symm.trans h
    exact .popped ⟨s.sp.val - 1, by omega⟩ (Nat.sub_one_lt hsp)
  | seImm x nn | sneImm x nn => cases h; exact pcTarget_skipIf s _
  | seReg x y | sneReg x y => cases h; exact pcTarget_skipIf s _
  | skp x => obtain ⟨-, rfl⟩ := execSkp_eq_next h; exact pcTarget_skipIf s _
  | sknp x => obtain ⟨-, rfl⟩ := execSknp_eq_next h; exact pcTarget_skipIf s _
  | ldVxK x =>
    obtain ⟨_, -, rfl⟩ | ⟨-, rfl⟩ := execLdVxK_eq_next h
    · exact .next
    · exact .stay
  | drw x y n => obtain ⟨_, _, rfl⟩ := execDrw_eq_next h; exact .next
  | _ => cases h; exact .next

theorem add_two_toNat {w : Word} (h : w.toNat ≤ 4096) : (w + 2).toNat = w.toNat + 2 := by
  rw [BitVec.toNat_add, show (2 : Word).toNat = 2 from rfl]
  omega

theorem npc_toNat {s : State} (h : s.pc.toNat ≤ 4094) : s.npc.toNat = s.pc.toNat + 2 :=
  add_two_toNat (by omega)

/-- The largest target is that of `BNNN`, 255 + 4095 (R35). -/
theorem pcTarget_le {s : State} {w : Word} (hpc : s.pc.toNat ≤ 4094) (hstack : StackLive s) (h : PcTarget s w) :
    w.toNat ≤ 0x10FE := by
  have hnpc := npc_toNat hpc
  cases h with
  | stay => omega
  | next => omega
  | skip =>
    rw [add_two_toNat (by omega)]
    omega
  | jump nnn =>
    have := nnn.isLt
    rw [zextNNN_toNat]
    omega
  | jumpV0 nnn =>
    have hreg := (s.reg 0).isLt
    have hnnn := nnn.isLt
    rw [regZeroWide_add_zextNNN_toNat]
    omega
  | popped j hj => exact (hstack j hj).trans (by decide)

/-! ### The stack -/

theorem stackLive_of_same {s t : State} (h : StackLive s) (hsame : Part.stack.same s t) : StackLive t := by
  obtain ⟨hsp, hcells⟩ := hsame
  intro j hj
  rw [hcells j]
  exact h j (hsp ▸ hj)

/-- A pop leaves fewer entries, and a push adds `npc`, which is at most 4096 (R27). -/
theorem exec_stackLive {i : Instr} {s t : State} (hpc : s.pc.toNat ≤ 4094) (hstack : StackLive s)
    (h : exec i s = .next t) : StackLive t := by
  cases i with
  | ret =>
    obtain ⟨hsp, -⟩ := execRet_eq_next h
    cases (exec_ret_of_sp_ne hsp).symm.trans h
    exact fun j hj => hstack j (lt_of_lt_of_le hj (Nat.sub_le _ _))
  | call nnn =>
    obtain ⟨hsp, -⟩ := execCall_eq_next h
    cases (exec_call_eq_next nnn hsp).symm.trans h
    intro j hj
    have hnpc := npc_toNat hpc
    dsimp only at hj ⊢
    rw [Vector.getElem_set]
    split
    · omega
    · exact hstack j (by omega)
  | _ =>
    refine stackLive_of_same hstack ((exec_writes_only h).2 .stack ?_)
    simp [Instr.partsWritten]

/-! ### Memory -/

/-- No instruction writes memory, nor changes its form (R55). -/
theorem exec_mem {i : Instr} {s t : State} (h : exec i s = .next t) : t.mem = s.mem := by
  cases i with
  | ret => obtain ⟨-, _, _, rfl⟩ := execRet_eq_next h; rfl
  | call nnn => obtain ⟨-, _, _, rfl⟩ := execCall_eq_next h; rfl
  | drw x y n => obtain ⟨_, _, rfl⟩ := execDrw_eq_next h; rfl
  | skp x => obtain ⟨-, rfl⟩ := execSkp_eq_next h; rfl
  | sknp x => obtain ⟨-, rfl⟩ := execSknp_eq_next h; rfl
  | ldVxK x => obtain ⟨_, -, rfl⟩ | ⟨-, rfl⟩ := execLdVxK_eq_next h <;> rfl
  | _ => cases h; rfl

/-! ### The invariant -/

/-- An instruction run where a word can be fetched keeps the facts of R35. -/
theorem exec_keepsInv {i : Instr} {s t : State} (hpc : s.pc.toNat ≤ 4094) (hs : MachineInv s)
    (h : exec i s = .next t) : MachineInv t where
  memory := (exec_mem h).symm ▸ hs.memory
  pc := pcTarget_le hpc hs.stack (exec_pcTarget h)
  stack := exec_stackLive hpc hs.stack h
  low a ha := by rw [exec_mem h]; exact hs.low a ha

theorem pc_le_of_nextInstr {s : State} {i : Instr} (h : NextInstr s i) : s.pc.toNat ≤ 4094 := by
  obtain ⟨op, hfetch, -⟩ := h
  exact ((fetch_eq_ok_iff s op).1 hfetch).1

/-- Settles O53: a step that succeeds has fetched, so its instruction ran at a `pc` of at most 4094. -/
theorem stepKeepsInv : Obligations.StepKeepsInv := by
  intro s t hs h
  obtain ⟨i, hi, he⟩ := nextInstr_of_step_eq_next h
  exact exec_keepsInv (pc_le_of_nextInstr hi) hs he

/-- Settles O54. -/
theorem resetMeetsInv : Obligations.ResetMeetsInv where
  memory := State.reset_mem_wf
  pc := by decide
  stack _ hj := absurd hj (Nat.not_lt_zero _)
  low _ _ := rfl

theorem load_keepsInv {rom : List Byte} {s : State} (hs : MachineInv s) (hlen : rom.length ≤ 3584) :
    MachineInv { s with mem := Memory.writeBytes s.mem 0x200 rom } where
  memory := Memory.wf_writeBytes s.mem 0x200 rom hs.memory (by omega)
  pc := hs.pc
  stack := hs.stack
  low a ha := (read_outside_image hs.memory hlen (.inl ha)).trans (hs.low a ha)

theorem transact_keepsInv (r : Transaction) {s : State} (hs : MachineInv s) : MachineInv (transact r s).2 := by
  cases r with
  | step =>
    obtain e | ⟨i, t, hi, he, e⟩ := transact_step_state s <;> rw [e]
    · exact hs
    · exact exec_keepsInv (pc_le_of_nextInstr hi) hs he
  | tickTimers => exact { hs with }
  | display => exact hs
  | reset => exact { resetMeetsInv with }
  | setKey index pressed =>
    by_cases h : index.toNat < 16
    · obtain ⟨keys, e, -⟩ := transact_setKey_of_lt pressed s h
      rw [e]
      exact { hs with }
    · rw [transact_setKey_of_ge pressed s (not_lt.1 h)]
      exact hs
  | load rom =>
    by_cases h : rom.length ≤ 3584
    · rw [transact_load_of_le s h]
      exact load_keepsInv hs h
    · rw [transact_load_of_gt s (not_le.1 h)]
      exact hs

/-- Settles O55: of the transactions `step` and `load` alone touch a piece the facts are about, and `reset` all of them. -/
theorem everyTransactionKeepsInv : Obligations.EveryTransactionKeepsInv := fun r _ hs => transact_keepsInv r hs

theorem transactAll_keepsInv (rs : List Transaction) {s : State} (hs : MachineInv s) :
    MachineInv (transactAll rs s) := by
  induction rs generalizing s with
  | nil => exact hs
  | cons r rs ih => exact ih (transact_keepsInv r hs)

/-- Settles O56: the facts hold at reset and every transaction keeps them. -/
theorem reachableStatesMeetInv : Obligations.ReachableStatesMeetInv := by
  rintro _ ⟨rs, rfl⟩
  exact transactAll_keepsInv rs resetMeetsInv

end Sys2Proof.Machine
end

section
/-! SUPPORT. Runs: the self-jump (40_flow.md R115), running off the end of memory (70_reset_and_hazards.md R264, R270) and
the delay timer under `TICK_FAIR` (45_host_operations.md R212). -/

namespace Sys2Proof.Machine

/-! ### The self-jump -/

theorem step_of_endedNormally {s : State} (h : EndedNormally s) : step s = .next s := by
  obtain ⟨op, nnn, hfetch, hdecode, hpc⟩ := h
  rw [step_of_nextInstr s (.jp nnn) ⟨op, hfetch, hdecode⟩]
  exact congrArg Host.Outcome.next (congrArg s.setPc hpc.symm)

theorem runSteps_of_step_eq_self {s : State} (h : step s = .next s) : ∀ n, runSteps n s = .next s
  | 0 => rfl
  | n + 1 => by rw [runSteps, h]; exact runSteps_of_step_eq_self h n

/-- Settles O57: the self-jump sets `pc` to what it was, and a tick or a key moves neither `pc` nor memory. -/
theorem selfJumpIsTheEndOfTheRun : Obligations.SelfJumpIsTheEndOfTheRun := by
  refine fun s h => ⟨runSteps_of_step_eq_self (step_of_endedNormally h), h, fun index p => ?_⟩
  by_cases hk : index.toNat < 16
  · obtain ⟨keys, e, -⟩ := transact_setKey_of_lt p s hk
    rw [e]
    exact h
  · rw [transact_setKey_of_ge p s (not_lt.1 hk)]
    exact h

/-! ### Zero memory -/

/-- Where the two bytes at `pc` are zero, the step is a no-op (R112). -/
theorem step_of_zero_word {s : State} (hpc : s.pc.toNat ≤ 4094) (hhigh : Memory.read s.mem s.pc.toNat = 0)
    (hlow : Memory.read s.mem (s.pc.toNat + 1) = 0) : step s = .next s.advance :=
  step_of_nextInstr s .nop ⟨_, (fetch_eq_ok_iff s _).2 ⟨hpc, rfl⟩, by rw [hhigh, hlow]; rfl⟩

theorem pc_add_toNat {s : State} {n : Nat} (h : s.pc.toNat + n ≤ 4096) :
    (s.pc + BitVec.ofNat 16 n).toNat = s.pc.toNat + n := by
  rw [BitVec.toNat_add, BitVec.toNat_ofNat]
  omega

theorem runSteps_zero_memory {s : State} (hzero : ∀ a, s.pc.toNat ≤ a → Memory.read s.mem a = 0) (k : Nat)
    (hk : s.pc.toNat + 2 * k ≤ 4096) : runSteps k s = .next { s with pc := s.pc + BitVec.ofNat 16 (2 * k) } := by
  induction k with
  | zero => exact congrArg Host.Outcome.next (congrArg s.setPc (BitVec.add_zero s.pc).symm)
  | succ k ih =>
    have hpc := pc_add_toNat (s := s) (n := 2 * k) (by omega)
    have hstep := step_of_zero_word (s := { s with pc := s.pc + BitVec.ofNat 16 (2 * k) }) (by rw [hpc]; omega)
      (hzero _ (by rw [hpc]; omega)) (hzero _ (by rw [hpc]; omega))
    rw [runSteps_succ_last, ih (by omega)]
    refine hstep.trans (congrArg Host.Outcome.next (congrArg s.setPc ?_))
    rw [State.npc, BitVec.add_assoc, Nat.mul_succ, BitVec.ofNat_add]
    rfl

/-- Settles O58: every step up to the end of memory executes the word of zeros, and at 4096 the fetch fails. -/
theorem zeroMemoryRunsOffTheEnd : Obligations.ZeroMemoryRunsOffTheEnd := by
  intro s k hzero hk
  refine ⟨runSteps_zero_memory hzero k hk, fun hend => ?_⟩
  have hpc := (pc_add_toNat hk).trans hend
  rw [runSteps_succ_last, runSteps_zero_memory hzero k hk]
  refine (step_of_pc_ge (s := { s with pc := s.pc + BitVec.ofNat 16 (2 * k) }) (by rw [hpc]; decide)).trans ?_
  rw [hpc, max_self]

/-! ### The delay timer -/

/-- No transaction raises `DT` but a step that executes `FX15` (R31). -/
theorem transact_dt_le {r : Transaction} {s : State} (h : ∀ x, r = .step → ¬ NextInstr s (.ldDtVx x)) :
    (transact r s).2.dt.toNat ≤ s.dt.toNat := by
  cases r with
  | step =>
    rw [transact]
    cases hstep : step s with
    | next t =>
      obtain ⟨hdt | ⟨x, hx, -⟩, -⟩ := step_timers hstep
      · exact (congrArg BitVec.toNat hdt).le
      · exact absurd hx (h x rfl)
    | fault f => exact le_rfl
    | refused q => exact le_rfl
  | tickTimers => exact (tickDown_toNat s.dt).trans_le (Nat.sub_le _ _)
  | reset => exact Nat.zero_le _
  | setKey index pressed =>
    have hkept := transact_timersKept (r := .setKey index pressed) s nofun nofun nofun
    exact (congrArg BitVec.toNat hkept.1).le
  | load rom =>
    have hkept := transact_timersKept (r := .load rom) s nofun nofun nofun
    exact (congrArg BitVec.toNat hkept.1).le
  | display => exact le_rfl

section
variable {sched : Nat → Transaction} {s : State}
  (hwriter : ∀ n x, sched n = .step → ¬ NextInstr (runSchedule sched s n) (.ldDtVx x))
include hwriter

theorem runSchedule_dt_antitone : Antitone fun n => (runSchedule sched s n).dt.toNat :=
  antitone_nat_of_succ_le fun n => transact_dt_le (hwriter n)

/-- Each further tick takes 1 more, and nothing between the ticks gives it back. -/
theorem exists_runSchedule_dt_le (hfair : TickFair sched) :
    ∀ k, ∃ n, (runSchedule sched s n).dt.toNat ≤ s.dt.toNat - k
  | 0 => ⟨0, le_rfl⟩
  | k + 1 => by
    obtain ⟨n, hn⟩ := exists_runSchedule_dt_le hfair k
    obtain ⟨m, hnm, hm⟩ := hfair n
    refine ⟨m + 1, ?_⟩
    have hle : (runSchedule sched s m).dt.toNat ≤ (runSchedule sched s n).dt.toNat := runSchedule_dt_antitone hwriter hnm
    calc (runSchedule sched s (m + 1)).dt.toNat
        = (tickDown (runSchedule sched s m).dt).toNat := by rw [runSchedule, hm]; rfl
      _ = (runSchedule sched s m).dt.toNat - 1 := tickDown_toNat _
      _ ≤ s.dt.toNat - (k + 1) := by omega

end

/-- Settles O59: after as many ticks as `DT` was at first, nothing is left of it. -/
theorem fairTicksEndADelay : Obligations.FairTicksEndADelay := by
  intro sched s hfair hwriter
  obtain ⟨n, hn⟩ := exists_runSchedule_dt_le hwriter hfair s.dt.toNat
  exact ⟨n, BitVec.eq_of_toNat_eq (Nat.eq_zero_of_le_zero (hn.trans_eq (Nat.sub_self _)))⟩

end Sys2Proof.Machine
end
